-- ==== Sys2Proof/Word.lean ====
section
/-! DEFINITION. The basic quantities of the SM3-IN-OC CORE (00_scope.md R5, R6): the byte, the 32-bit word,
the byte string, and the fixed-size register files built from them. -/

namespace Sys2Proof

/-- An unsigned 8-bit quantity (00_scope.md R6). -/
abbrev Byte := BitVec 8

/-- An unsigned 32-bit quantity; `+` on it is addition modulo 2^32 (00_scope.md R6, R7; 40_compressor.md R130). -/
abbrev Word := BitVec 32

/-- A byte string, indexed from 0 (00_scope.md R6). -/
abbrev ByteString := List Byte

/-- The chaining value `V[0..7]`, the source's HashState (10_state.md R24). -/
abbrev HashState := Vector Word 8

/-- 64 consecutive bytes: a block, an accumulation buffer or a pad (00_scope.md R5). -/
abbrev Block := Vector Byte 64

end Sys2Proof
end

