-- ==== Sys2Proof/Machine/Operands.lean ====
section
/-! DEFINITION. Operand assembly and byte order: big-endian reads and writes of words (20_memory.md R61 to R66), the
signed length operand (30_encoding.md R94), the slot index (30_encoding.md R95). -/

namespace Sys2Proof.Machine

/-- Byte `i` of the byte space `sp`. -/
def byteAt (sp : ByteString) (i : Nat) : Byte := sp.getD i 0

/-- `MemRead(sp:a, n)`: the unsigned number whose most significant byte is the byte at `a` (20_memory.md R62). -/
def memRead (sp : ByteString) (a : Nat) : Nat → Nat
  | 0 => 0
  | n + 1 => 256 * memRead sp a n + (byteAt sp (a + n)).toNat

/-- The bytes `MemWrite(sp:a, n, v)` stores, lowest index first (20_memory.md R63). -/
def bigEndian (n v : Nat) : ByteString :=
  (List.range n).map fun i => BitVec.ofNat 8 (v / 2 ^ (8 * (n - 1 - i)))

/-- The big-endian word at byte offset `a` of `sp` (20_memory.md R62). -/
def wordAt (sp : ByteString) (a : Nat) : Word := BitVec.ofNat 32 (memRead sp a 4)

/-- The four bytes of a word, most significant first (20_memory.md R63). -/
def wordBytes (w : Word) : ByteString := bigEndian 4 w.toNat

/-- The eight bytes of the padding's length field (20_memory.md R64). -/
def lengthField (bitlen : BitVec 64) : ByteString := bigEndian 8 bitlen.toNat

/-- The 32 bytes of a chaining value: the digest layout (20_memory.md R63; 30_encoding.md R97). -/
def digestBytes (V : HashState) : ByteString := V.toList.flatMap wordBytes

/-- The signed value of a length operand, `sext_33(word)` (30_encoding.md R94). -/
def signedLength (len : BitVec 32) : Int := len.toInt

/-- A length operand is legal for the byte string sent with it: not negative, and exactly the string's length
(30_encoding.md R93, R94; 60_exceptions.md R251 causes 6 and 7). -/
def lengthLegal (len : BitVec 32) (data : ByteString) : Bool :=
  decide (0 ≤ signedLength len) && decide ((data.length : Int) = signedLength len)

/-- A register file or a buffer with element `i` replaced by `a`; every index a rule uses lies inside it
(10_state.md R26; 40_compressor.md R148 c). -/
def stored {α : Type} {n : Nat} (v : Vector α n) (i : Nat) (a : α) : Vector α n :=
  if h : i < n then v.set i a h else v

/-- The slot index an 8-bit `SLOT` field names: zero-extended (30_encoding.md R95). -/
def slotIndex (slot : BitVec 8) : Nat := slot.toNat

end Sys2Proof.Machine
end

