-- ==== Sys2Proof/Syntax.lean ====
section
/-! DEFINITION. The decoded commands of the CORE (30_encoding.md R90, R106): one constructor per row of
spec/opcode_table.json, its slot index, its signed length operands and its byte strings as fields. -/

namespace Sys2Proof

/-- A decoded command. A slot index is the 8-bit `SLOT` field (30_encoding.md R92, R95); a length operand is the
32-bit word of the packet, read as two's complement (30_encoding.md R94). -/
inductive Instr where
  /-- `COMPRESS state, block` (40_compressor.md R146). -/
  | compress (state : HashState) (block : Block)
  /-- `INIT c` (41_streaming_hasher.md R181). -/
  | init (c : BitVec 8)
  /-- `UPDATE c, data` (41_streaming_hasher.md R182). -/
  | update (c : BitVec 8) (len : BitVec 32) (data : ByteString)
  /-- `FINALIZE c` (41_streaming_hasher.md R185). -/
  | finalize (c : BitVec 8)
  /-- `HASH data` (41_streaming_hasher.md R189). -/
  | hash (len : BitVec 32) (data : ByteString)
  /-- `HMAC_INIT h, key` (42_hmac.md R222). -/
  | hmacInit (h : BitVec 8) (len : BitVec 32) (key : ByteString)
  /-- `HMAC_UPDATE h, data` (42_hmac.md R223). -/
  | hmacUpdate (h : BitVec 8) (len : BitVec 32) (data : ByteString)
  /-- `HMAC_FINISH h` (42_hmac.md R224). -/
  | hmacFinish (h : BitVec 8)
  /-- `HMAC key, data` (42_hmac.md R225). -/
  | hmac (klen mlen : BitVec 32) (key data : ByteString)
  deriving DecidableEq, Repr

end Sys2Proof
end

