-- ==== Sys2Proof/WellFormed.lean ====
section
/-! DEFINITION. Which decoded commands a packet can carry (30_encoding.md R93, R94, R106): every length operand is
non-negative and is the length of its byte string. The range of a slot index is no part of this: it depends on the
number of slots of the machine (30_encoding.md R95) and is checked when the command runs. -/

namespace Sys2Proof

/-- Why a decoded command is not well formed. -/
inductive FormError where
  /-- A length operand is negative (30_encoding.md R94, R99 f). -/
  | negativeLength
  /-- A length operand is not the length of its byte string (30_encoding.md R93, R99 g). -/
  | lengthMismatch
  deriving DecidableEq, Repr

/-- The byte-string operands of a command, each with its length operand, in packet order (30_encoding.md R93). -/
def Instr.strings : Instr → List (BitVec 32 × ByteString)
  | .compress _ _ => []
  | .init _ => []
  | .update _ len data => [(len, data)]
  | .finalize _ => []
  | .hash len data => [(len, data)]
  | .hmacInit _ len key => [(len, key)]
  | .hmacUpdate _ len data => [(len, data)]
  | .hmacFinish _ => []
  | .hmac klen mlen key data => [(klen, key), (mlen, data)]

/-- The first thing wrong with a decoded command: all signs before all lengths (60_exceptions.md R256 checks 6, 7). -/
def Instr.formError (i : Instr) : Option FormError :=
  if i.strings.any (fun x => decide (Machine.signedLength x.1 < 0)) then some .negativeLength
  else if i.strings.any (fun x => decide ((x.2.length : Int) ≠ Machine.signedLength x.1)) then some .lengthMismatch
  else none

/-- A command whose operands a packet can carry. -/
abbrev Instr.WellFormed (i : Instr) : Prop := i.formError = none

end Sys2Proof
end

