-- ==== Sys2Proof/Decode.lean ====
section
/-! DEFINITION. The packet layer (30_encoding.md R91 to R101, R106): a total decoder from packet bytes to a decoded
command or a named rejection, then the encoder, then the reading of an opcode-table word. -/

namespace Sys2Proof

open Machine

/-- Why a packet is illegal (30_encoding.md R99). The machine answers all of them with `INVALID_INPUT`. -/
inductive DecodeError where
  /-- R99 (a): shorter than 4 bytes. -/
  | shortPacket
  /-- R99 (b): `OPC` is 0x0 or 0xA to 0xF. -/
  | reservedOpcode
  /-- R99 (c): `RSV` is not 0. -/
  | reservedBits
  /-- R99 (d): `SLOT` is not 0 in a command that names no slot. -/
  | slotNotZero
  /-- R99 (e): too short to hold its length words. -/
  | missingLength
  /-- R99 (f): a length operand is negative. -/
  | negativeLength
  /-- R99 (g): the packet length is not the exact length of its format. -/
  | wrongLength
  deriving DecidableEq, Repr

/-- The nine opcodes (30_encoding.md R98). -/
inductive Opcode where
  | compress
  | init
  | update
  | finalize
  | hash
  | hmacInit
  | hmacUpdate
  | hmacFinish
  | hmac
  deriving DecidableEq, Repr

/-- The `OPC` value of a command (30_encoding.md R98). -/
def Opcode.bits : Opcode → BitVec 4
  | .compress => 0x1
  | .init => 0x2
  | .update => 0x3
  | .finalize => 0x4
  | .hash => 0x5
  | .hmacInit => 0x6
  | .hmacUpdate => 0x7
  | .hmacFinish => 0x8
  | .hmac => 0x9

/-- The command an `OPC` value selects; 0x0 and 0xA to 0xF are reserved (30_encoding.md R98, R99 b). -/
def Opcode.ofBits (opc : BitVec 4) : Option Opcode :=
  match opc.toNat with
  | 1 => some .compress
  | 2 => some .init
  | 3 => some .update
  | 4 => some .finalize
  | 5 => some .hash
  | 6 => some .hmacInit
  | 7 => some .hmacUpdate
  | 8 => some .hmacFinish
  | 9 => some .hmac
  | _ => none

/-- The commands that name no slot, whose `SLOT` field must be 0 (30_encoding.md R92, R95). -/
def Opcode.slotless : Opcode → Bool
  | .compress => true
  | .hash => true
  | .hmac => true
  | .init => false
  | .update => false
  | .finalize => false
  | .hmacInit => false
  | .hmacUpdate => false
  | .hmacFinish => false

/-- The fields of the header word (30_encoding.md R92). -/
def headerOpc (hd : Word) : BitVec 4 := hd.extractLsb' 28 4

/-- See `headerOpc`. -/
def headerSlot (hd : Word) : BitVec 8 := hd.extractLsb' 20 8

/-- See `headerOpc`. -/
def headerRsv (hd : Word) : BitVec 20 := hd.extractLsb' 0 20

/-- The header checks, in the order of 60_exceptions.md R256: opcode, reserved bits, slot of a slotless command. -/
def decodeHeader (hd : Word) : Except DecodeError (Opcode × BitVec 8) :=
  match Opcode.ofBits (headerOpc hd) with
  | none => .error .reservedOpcode
  | some op =>
    if headerRsv hd ≠ 0 then .error .reservedBits
    else if op.slotless = true ∧ headerSlot hd ≠ 0 then .error .slotNotZero
    else .ok (op, headerSlot hd)

/-- Format N: nothing follows the header (30_encoding.md R93). -/
def decodeN (i : Instr) (body : ByteString) : Except DecodeError Instr :=
  if body.length = 0 then .ok i else .error .wrongLength

/-- Format B: a length word and one byte string (30_encoding.md R93). -/
def decodeB (mk : BitVec 32 → ByteString → Instr) (body : ByteString) : Except DecodeError Instr :=
  if body.length < 4 then .error .missingLength
  else if signedLength (wordAt body 0) < 0 then .error .negativeLength
  else if (body.length : Int) ≠ 4 + signedLength (wordAt body 0) then .error .wrongLength
  else .ok (mk (wordAt body 0) (body.drop 4))

/-- Format K: two length words and two byte strings (30_encoding.md R93). -/
def decodeK (mk : BitVec 32 → BitVec 32 → ByteString → ByteString → Instr) (body : ByteString) :
    Except DecodeError Instr :=
  if body.length < 8 then .error .missingLength
  else if signedLength (wordAt body 0) < 0 ∨ signedLength (wordAt body 4) < 0 then .error .negativeLength
  else if (body.length : Int) ≠ 8 + signedLength (wordAt body 0) + signedLength (wordAt body 4) then .error .wrongLength
  else .ok (mk (wordAt body 0) (wordAt body 4) ((body.drop 8).take (wordAt body 0).toNat)
    ((body.drop 8).drop (wordAt body 0).toNat))

/-- The 8 state words at the front of a format C body, `V[0]` first (30_encoding.md R93). -/
@[irreducible] def stateWords (body : ByteString) : HashState := Vector.ofFn fun i => wordAt body (4 * i.val)

/-- The 64 block bytes after them (30_encoding.md R93). -/
@[irreducible] def blockBytes (body : ByteString) : Block := Vector.ofFn fun i => byteAt body (32 + i.val)

/-- Format C: 8 state words and 64 block bytes (30_encoding.md R93). -/
def decodeC (mk : HashState → Block → Instr) (body : ByteString) : Except DecodeError Instr :=
  if body.length = 96 then
    .ok (mk (stateWords body) (blockBytes body))
  else .error .wrongLength

/-- The decoder: every byte string is one of the nine commands or is rejected by name (30_encoding.md R99, R106). -/
def decode (p : ByteString) : Except DecodeError Instr :=
  if p.length < 4 then .error .shortPacket
  else
    match decodeHeader (wordAt p 0) with
    | .error e => .error e
    | .ok (.compress, _) => decodeC .compress (p.drop 4)
    | .ok (.init, c) => decodeN (.init c) (p.drop 4)
    | .ok (.update, c) => decodeB (.update c) (p.drop 4)
    | .ok (.finalize, c) => decodeN (.finalize c) (p.drop 4)
    | .ok (.hash, _) => decodeB .hash (p.drop 4)
    | .ok (.hmacInit, h) => decodeB (.hmacInit h) (p.drop 4)
    | .ok (.hmacUpdate, h) => decodeB (.hmacUpdate h) (p.drop 4)
    | .ok (.hmacFinish, h) => decodeN (.hmacFinish h) (p.drop 4)
    | .ok (.hmac, _) => decodeK .hmac (p.drop 4)

/-- The header word of a command: `OPC[31:28] SLOT[27:20] RSV[19:0]` (30_encoding.md R92). -/
def headerWord (op : Opcode) (slot : BitVec 8) : Word :=
  BitVec.ofNat 32 (2 ^ 28 * op.bits.toNat + 2 ^ 20 * slot.toNat)

/-- The packet of a command (30_encoding.md R92, R93, R98; 20_memory.md R66). -/
def encode : Instr → ByteString
  | .compress V block => wordBytes (headerWord .compress 0) ++ digestBytes V ++ block.toList
  | .init c => wordBytes (headerWord .init c)
  | .update c len data => wordBytes (headerWord .update c) ++ wordBytes len ++ data
  | .finalize c => wordBytes (headerWord .finalize c)
  | .hash len data => wordBytes (headerWord .hash 0) ++ wordBytes len ++ data
  | .hmacInit h len key => wordBytes (headerWord .hmacInit h) ++ wordBytes len ++ key
  | .hmacUpdate h len data => wordBytes (headerWord .hmacUpdate h) ++ wordBytes len ++ data
  | .hmacFinish h => wordBytes (headerWord .hmacFinish h)
  | .hmac klen mlen key data => wordBytes (headerWord .hmac 0) ++ wordBytes klen ++ wordBytes mlen ++ key ++ data

/-- The exact packet length that a header and the two words after it call for (30_encoding.md R93). -/
def packetLength (hd w1 w2 : Word) : Nat :=
  match Opcode.ofBits (headerOpc hd) with
  | some .compress => 100
  | some .update => 8 + w1.toNat
  | some .hash => 8 + w1.toNat
  | some .hmacInit => 8 + w1.toNat
  | some .hmacUpdate => 8 + w1.toNat
  | some .hmac => 12 + w1.toNat + w2.toNat
  | some .init => 4
  | some .finalize => 4
  | some .hmacFinish => 4
  | none => 4

/-- The packet whose bits are `w`, numbered as the opcode table numbers them: bit 0 is the least significant bit of the
32-bit header word, a later 32-bit word's bits count on from it; every bit above `nbits` is 0. -/
def tablePacket (nbits w : Nat) : ByteString :=
  let word (k : Nat) : Word := BitVec.ofNat 32 ((w % 2 ^ nbits) / 2 ^ (32 * k))
  let n := packetLength (word 0) (word 1) (word 2)
  ((List.range ((n + 3) / 4)).flatMap fun k => wordBytes (word k)).take n

/-- The command the decoder reads from an opcode-table word. -/
def decodeTableWord (nbits w : Nat) : Option Instr :=
  match decode (tablePacket nbits w) with
  | .ok i => some i
  | .error _ => none

end Sys2Proof
end

