-- ==== Sys2Proof/Machine/Constants.lean ====
section
/-! DEFINITION. The read-only constants shared by all slots (10_state.md R20 to R22) and the length bound
(00_scope.md R5, 60_exceptions.md R265). -/

namespace Sys2Proof.Machine

/-- `IV[0..7]`, the initial chaining value (10_state.md R20). -/
def iv : HashState :=
  #v[0x7380166f, 0x4914b2b9, 0x172442d7, 0xda8a0600, 0xa96f30bc, 0x163138aa, 0xe38dee4d, 0xb0fb0e4e]

/-- `TBASE[0]`, the round-constant base of rounds below 16 (10_state.md R21). -/
def tbase0 : Word := 0x79cc4519

/-- `TBASE[1]`, the round-constant base of rounds from 16 on (10_state.md R21). -/
def tbase1 : Word := 0x7a879d8a

/-- `IPAD_BYTE` (10_state.md R22). -/
def ipadByte : Byte := 0x36

/-- `OPAD_BYTE` (10_state.md R22). -/
def opadByte : Byte := 0x5c

/-- The HMAC block length: the threshold of the key test and the length of K0 (10_state.md R22). -/
def hmacBlockLength : Nat := 64

/-- `MAXTOTAL`, the first byte count out of scope (00_scope.md R5; 60_exceptions.md R265). -/
def maxTotal : Nat := 2 ^ 61

end Sys2Proof.Machine
end

