-- ==== Sys2Proof/Config.lean ====
section
/-! DEFINITION. What an implementation of the CORE fixes (00_scope.md R5), and the free values: the contents the
spec leaves unspecified (10_state.md R29, R39, R43; 93_implementation_defined.md U2, U6, U7). -/

namespace Sys2Proof

/-- The piece of state a free value stands in: a plain slot, the contexts and pads of an HMAC slot, the scratch
contexts no command can name (10_state.md R34), or the compressor datapath (10_state.md R35 to R37). -/
inductive Owner where
  | ctx (c : Nat)
  | inner (h : Nat)
  | outer (h : Nat)
  | pads (h : Nat)
  | scr
  | hscrInner
  | hscrOuter
  | hscrPads
  | datapath
  deriving DecidableEq, Repr

/-- The field of its owner that a free value stands in. -/
inductive Field where
  | V
  | buf
  | fill
  | total
  | st
  | ipad
  | opad
  | work
  | W
  | W1
  | j
  deriving DecidableEq, Repr

namespace Config

/-- `NCTX`, the number of plain Context slots, at its default (00_scope.md R5; decision D4). Only `State.reset` reads
it: every other definition takes the number of slots from the length of `State.ctx`, so that what is proved of every
state is proved for every `NCTX`. -/
def nctx : Nat := 2

/-- `NHCTX`, the number of HmacContext slots, at its default (00_scope.md R5; decision D4); see `nctx`. -/
def nhctx : Nat := 1

/-- The bits the spec leaves unspecified. `serial` numbers the occasions on which something becomes unspecified (a
counter of `State`), `owner` and `field` say where the value stands, `index` is the element of a register file.
It has no body: nothing can be proved of its value, so a claim holds whatever the hardware leaves there
(assumption log 2, 3, 4). -/
opaque freeBits (w : Nat) (serial : Nat) (owner : Owner) (field : Field) (index : Nat) : BitVec w

end Config

end Sys2Proof
end

