-- ==== Sys2Proof/Machine/State.lean ====
section
/-! DEFINITION. The architectural state of the CORE as plain data (10_state.md), the ways a step can stop
(60_exceptions.md R250), and the state after reset (70_reset_and_hazards.md R281). -/

namespace Sys2Proof.Machine

/-- The 2-bit status field `st` of a Context (10_state.md R23, R28); the value 3 is never written. -/
abbrev Status := BitVec 2

/-- `ST_UNINIT` (00_scope.md R5). -/
abbrev Status.uninit : Status := 0

/-- `ST_ACTIVE` (00_scope.md R5). -/
abbrev Status.active : Status := 1

/-- `ST_FINAL` (00_scope.md R5). -/
abbrev Status.final : Status := 2

/-- A Context: one streaming-hash state (10_state.md R23 to R28). -/
structure Context where
  /-- The chaining value (R24). -/
  V : HashState
  /-- The accumulation buffer; only `buf[0..fill)` is meaningful (R25). -/
  buf : Block
  /-- The number of meaningful bytes in `buf` (R26). -/
  fill : BitVec 6
  /-- The bytes accepted by UPDATE since INIT (R27). -/
  total : BitVec 64
  /-- The status (R28). -/
  st : Status
  deriving DecidableEq, Repr

/-- An HmacContext (10_state.md R30 to R33). -/
structure HmacContext where
  /-- The hash of `ipad ‖ message` in progress; its `st` is the status of the HMAC slot (R33). -/
  inner : Context
  /-- The hash of `opad ‖ innerDigest`, built at HMAC_FINISH (R30, R33). -/
  outer : Context
  /-- `K0 XOR 0x36^64` (R30, R32). -/
  ipad : Block
  /-- `K0 XOR 0x5c^64` (R30, R32). -/
  opad : Block
  deriving DecidableEq, Repr

/-- The transient registers of the compressor datapath (10_state.md R35 to R37). -/
structure Datapath where
  /-- The working variables `A` to `H` (R35). -/
  A : Word
  B : Word
  C : Word
  D : Word
  E : Word
  F : Word
  G : Word
  H : Word
  /-- The message schedule `W[0..67]` (R36). -/
  W : Vector Word 68
  /-- The second schedule `W1[0..63]` (R36). -/
  W1 : Vector Word 64
  /-- The round index, 0 to 64 (R37). -/
  j : BitVec 7
  deriving DecidableEq, Repr

/-- What the host can do to the CORE (00_scope.md R10): send a command packet, or assert reset
(70_reset_and_hazards.md R280). -/
inductive HostEvent where
  | packet (bytes : ByteString)
  | reset
  deriving DecidableEq, Repr

/-- A response of the CORE: one of two status values, and the output bytes of a success (30_encoding.md R96). -/
inductive Response where
  /-- Status `OK`, followed by the output bytes. -/
  | ok (out : ByteString)
  /-- Status `INVALID_INPUT`, followed by nothing. -/
  | invalidInput
  deriving DecidableEq, Repr

/-- The state of the machine. -/
structure State where
  /-- The plain slots `CTX[0..NCTX-1]`; the length of the list is `NCTX` (10_state.md R23). -/
  ctx : List Context
  /-- The HMAC slots `HCTX[0..NHCTX-1]`; the length of the list is `NHCTX` (10_state.md R30). -/
  hctx : List HmacContext
  /-- The scratch Context `SCR` (10_state.md R34). -/
  scr : Context
  /-- The scratch HmacContext `HSCR` (10_state.md R34). -/
  hscr : HmacContext
  /-- The compressor datapath (10_state.md R35 to R37). -/
  datapath : Datapath
  /-- The model's own: what the host will do next, in order (assumption log 1). -/
  input : List HostEvent
  /-- The model's own: the responses the host has received, oldest first (assumption log 1). -/
  responses : List Response
  /-- The model's own: the number of the next occasion on which contents become unspecified (assumption log 3). -/
  serial : Nat
  deriving DecidableEq, Repr

/-- Why the machine stops with a fault. -/
inductive Fault where
  /-- The fatal assertion of 60_exceptions.md R255: at the start of a command a Context in `ST_ACTIVE` has
  `fill != total mod 64`, or a `st` field holds 3. Raised by every command and every illegal packet. Safe: the model
  stops where the spec gives the hardware no behaviour; no sequence of commands from reset reaches it. -/
  | fatalAssert
  deriving DecidableEq, Repr

/-- Why a command is given no meaning. -/
inductive Refusal where
  /-- An instruction the model does not have yet. Raised by no arm of this model. Safe: nothing is claimed of it. -/
  | notModelled (mnemonic : String)
  /-- The refusal of 60_exceptions.md R265: an UPDATE or HMAC_UPDATE whose acceptance would bring `total` to 2^61 bytes
  or more, which the source calls out of scope and undefined. Safe: no state and no response is claimed. -/
  | lengthOutOfScope
  deriving DecidableEq, Repr

/-- A register file of `k` words whose contents are unspecified (10_state.md R43). -/
@[irreducible] def unspecifiedWords (k n : Nat) (o : Owner) (f : Field) : Vector Word k :=
  Vector.ofFn fun i => Config.freeBits 32 n o f i.val

/-- A buffer or a pad whose bytes are unspecified (10_state.md R43). -/
@[irreducible] def unspecifiedBytes (n : Nat) (o : Owner) (f : Field) : Block :=
  Vector.ofFn fun i => Config.freeBits 8 n o f i.val

/-- A Context all of whose fields but `st` are unspecified (10_state.md R29, R43). -/
def Context.unspecified (n : Nat) (o : Owner) (st : Status) : Context where
  V := unspecifiedWords 8 n o .V
  buf := unspecifiedBytes n o .buf
  fill := Config.freeBits 6 n o .fill 0
  total := Config.freeBits 64 n o .total 0
  st := st

/-- An HMAC slot after reset: both statuses given, all else unspecified (10_state.md R43). -/
def HmacContext.unspecified (n : Nat) (h : Nat) (st : Status) : HmacContext where
  inner := Context.unspecified n (.inner h) st
  outer := Context.unspecified n (.outer h) st
  ipad := unspecifiedBytes n (.pads h) .ipad
  opad := unspecifiedBytes n (.pads h) .opad

/-- The contents of `SCR` between commands: unspecified, its `st` too (10_state.md R34, R39). -/
def scrUnspecified (n : Nat) : Context :=
  Context.unspecified n .scr (Config.freeBits 2 n .scr .st 0)

/-- The contents of `HSCR` between commands: unspecified (10_state.md R34, R39). -/
def hscrUnspecified (n : Nat) : HmacContext where
  inner := Context.unspecified n .hscrInner (Config.freeBits 2 n .hscrInner .st 0)
  outer := Context.unspecified n .hscrOuter (Config.freeBits 2 n .hscrOuter .st 0)
  ipad := unspecifiedBytes n .hscrPads .ipad
  opad := unspecifiedBytes n .hscrPads .opad

/-- The contents of the datapath between commands: unspecified (10_state.md R39). -/
def Datapath.unspecified (n : Nat) : Datapath where
  A := Config.freeBits 32 n .datapath .work 0
  B := Config.freeBits 32 n .datapath .work 1
  C := Config.freeBits 32 n .datapath .work 2
  D := Config.freeBits 32 n .datapath .work 3
  E := Config.freeBits 32 n .datapath .work 4
  F := Config.freeBits 32 n .datapath .work 5
  G := Config.freeBits 32 n .datapath .work 6
  H := Config.freeBits 32 n .datapath .work 7
  W := unspecifiedWords 68 n .datapath .W
  W1 := unspecifiedWords 64 n .datapath .W1
  j := Config.freeBits 7 n .datapath .j 0

/-- The reset state of a CORE with `nctx` plain and `nhctx` HMAC slots (70_reset_and_hazards.md R281): every `st` is
`ST_UNINIT`, every other piece of state is unspecified. What the host has still to send and has received is the host's
and is kept. -/
def State.afterReset (nctx nhctx n : Nat) (input : List HostEvent) (responses : List Response) : State where
  ctx := (List.range nctx).map fun c => Context.unspecified n (.ctx c) Status.uninit
  hctx := (List.range nhctx).map fun h => HmacContext.unspecified n h Status.uninit
  scr := scrUnspecified n
  hscr := hscrUnspecified n
  datapath := Datapath.unspecified n
  input := input
  responses := responses
  serial := n + 1

/-- The machine right after reset (70_reset_and_hazards.md R281), with the default numbers of slots (00_scope.md R5)
and a host that sends nothing. -/
def State.reset : State := State.afterReset Config.nctx Config.nhctx 0 [] []

end Sys2Proof.Machine
end

