-- ==== Sys2Proof/Machine/Compressor.lean ====
section
/-! DEFINITION. The BlockCompressor (40_compressor.md): word primitives, constant schedule, message expansion, the
round, the feed-forward, and `compress`, as the phases PARSE, EXPAND, SEED, ROUND, FEEDFORWARD over the datapath
registers (R147). -/

namespace Sys2Proof.Machine

/-- `ROTL(x, n)`: circular left rotation by `n mod 32` (R131). -/
def rotl (x : Word) (n : Nat) : Word := x.rotateLeft (n % 32)

/-- Permutation `P0` (R133). -/
def p0 (x : Word) : Word := x ^^^ rotl x 9 ^^^ rotl x 17

/-- Permutation `P1` (R134). -/
def p1 (x : Word) : Word := x ^^^ rotl x 15 ^^^ rotl x 23

/-- Boolean function `FF` of round `j` (R135). -/
def ff (j : Nat) (x y z : Word) : Word :=
  if j ≤ 15 then x ^^^ y ^^^ z else (x &&& y) ||| (x &&& z) ||| (y &&& z)

/-- Boolean function `GG` of round `j` (R136). -/
def gg (j : Nat) (x y z : Word) : Word :=
  if j ≤ 15 then x ^^^ y ^^^ z else (x &&& y) ||| (~~~x &&& z)

/-- The round constant `T(j)`, rotated afresh from its base (R137). -/
def roundConstant (j : Nat) : Word := if j ≤ 15 then rotl tbase0 (j % 32) else rotl tbase1 (j % 32)

/-- Element `i` of a schedule. Every index a rule uses lies inside its array (R148 c). -/
def element {n : Nat} (W : Vector Word n) (i : Nat) : Word := W[i]?.getD 0

/-- The expanded word `W[j]`, from the words before it (R139). -/
def expandedWord (W : Vector Word 68) (j : Nat) : Word :=
  p1 (element W (j - 16) ^^^ element W (j - 9) ^^^ rotl (element W (j - 3)) 15)
    ^^^ rotl (element W (j - 13)) 7 ^^^ element W (j - 6)

/-- The schedule with `W[0..15]` written from the block (R138). -/
@[irreducible] def parsedWords (block : Block) (W : Vector Word 68) : Vector Word 68 :=
  Vector.ofFn fun i => if i.val < 16 then wordAt block.toList (4 * i.val) else W[i]

/-- PARSE: the block as 16 big-endian words `W[0..15]` (R138). -/
def Datapath.parse (block : Block) (d : Datapath) : Datapath := { d with W := parsedWords block d.W }

/-- One step of EXPAND: write `W[j]` (R139). -/
def Datapath.expandAt (d : Datapath) (j : Nat) : Datapath :=
  { d with W := stored d.W j (expandedWord d.W j) }

/-- EXPAND: write `W[16..67]`, in increasing order (R139). -/
def Datapath.expand (d : Datapath) : Datapath := (List.range' 16 52).foldl Datapath.expandAt d

/-- `W1[j] = W[j] XOR W[j+4]` for all `j` (R140). -/
@[irreducible] def derivedWords (W : Vector Word 68) : Vector Word 64 :=
  Vector.ofFn fun j => element W j.val ^^^ element W (j.val + 4)

/-- The second schedule `W1[0..63]` (R140). -/
def Datapath.derive (d : Datapath) : Datapath := { d with W1 := derivedWords d.W }

/-- SEED: the working variables from the chaining value, and `j = 0` (R141, R37). -/
def Datapath.seed (V : HashState) (d : Datapath) : Datapath :=
  { d with A := V[0], B := V[1], C := V[2], D := V[3], E := V[4], F := V[5], G := V[6], H := V[7], j := 0 }

/-- One round, with the index `j` of the datapath; every right-hand side reads the values from before the round, and `j`
advances by one (R142, R37). -/
def Datapath.round (d : Datapath) : Datapath :=
  let j := d.j.toNat
  let ss1 := rotl (rotl d.A 12 + d.E + roundConstant j) 7
  let ss2 := ss1 ^^^ rotl d.A 12
  let tt1 := ff j d.A d.B d.C + d.D + ss2 + element d.W1 j
  let tt2 := gg j d.E d.F d.G + d.H + ss1 + element d.W j
  { d with
    D := d.C, C := rotl d.B 9, B := d.A, A := tt1,
    H := d.G, G := rotl d.F 19, F := d.E, E := p0 tt2,
    j := d.j + 1 }

/-- FEEDFORWARD: the old chaining value XOR the working variables (R144). -/
def feedForward (V : HashState) (d : Datapath) : HashState :=
  #v[V[0] ^^^ d.A, V[1] ^^^ d.B, V[2] ^^^ d.C, V[3] ^^^ d.D, V[4] ^^^ d.E, V[5] ^^^ d.F, V[6] ^^^ d.G, V[7] ^^^ d.H]

/-- The datapath just before round 0 (R138 to R141). -/
def Datapath.prepare (d : Datapath) (V : HashState) (block : Block) : Datapath :=
  ((d.parse block).expand.derive).seed V

/-- The datapath after all 64 rounds (R143), started from any contents `d`. -/
def Datapath.run (d : Datapath) (V : HashState) (block : Block) : Datapath :=
  Nat.iterate Datapath.round 64 (d.prepare V block)

/-- A datapath to start from. Its contents do not matter: every register is written before it is read (10_state.md
R39). -/
def Datapath.blank : Datapath where
  A := 0
  B := 0
  C := 0
  D := 0
  E := 0
  F := 0
  G := 0
  H := 0
  W := Vector.replicate 68 0
  W1 := Vector.replicate 64 0
  j := 0

/-- `compress(V, block)` (R145). -/
@[irreducible] def compress (V : HashState) (block : Block) : HashState := feedForward V (Datapath.blank.run V block)

end Sys2Proof.Machine
end

