-- ==== Sys2Proof/Machine/Flags.lean ====
section
/-! DEFINITION. The status-like state. The CORE has no arithmetic flags and no condition codes (10_state.md R41): what
it has is the field `st` of each Context (10_state.md R28), the assertion over `fill`, `total` and `st`
(60_exceptions.md R255), the length bound (60_exceptions.md R265), and the status byte of a response
(60_exceptions.md R252). -/

namespace Sys2Proof.Machine

/-- The Context accepts UPDATE and FINALIZE (10_state.md R28; 60_exceptions.md R251 causes 8 and 9). -/
def Context.isActive (X : Context) : Bool := decide (X.st = Status.active)

/-- No fatal assertion holds of the Context: `st` is not 3 and, when it is `ST_ACTIVE`, `fill = total mod 64`
(60_exceptions.md R255). `fill > 63` cannot be written in the 6 bits of `fill` (10_state.md R26). -/
def Context.consistent (X : Context) : Bool :=
  decide (X.st ≠ 3) && (!X.isActive || decide (X.fill.toNat = X.total.toNat % 64))

/-- No fatal assertion holds of any slot (60_exceptions.md R255). The scratch contexts are not looked at: their contents
between commands are unspecified (10_state.md R34). -/
def State.consistent (s : State) : Bool :=
  s.ctx.all Context.consistent && s.hctx.all fun Y => Y.inner.consistent && Y.outer.consistent

/-- `n` more bytes keep the total below 2^61 bytes (60_exceptions.md R265). -/
def Context.withinBound (X : Context) (n : Nat) : Bool := decide (X.total.toNat + n < maxTotal)

/-- The status byte: `OK = 0x00`, `INVALID_INPUT = 0x01` (30_encoding.md R96; 60_exceptions.md R252). -/
def Response.statusByte : Response → Byte
  | .ok _ => 0x00
  | .invalidInput => 0x01

/-- The bytes of a response packet: the status byte, then the output bytes (30_encoding.md R96). -/
def Response.packet : Response → ByteString
  | .ok out => Response.statusByte (.ok out) :: out
  | .invalidInput => [Response.statusByte .invalidInput]

end Sys2Proof.Machine
end

