-- ==== Sys2Proof/Machine/Ops.lean ====
section
/-! DEFINITION. The named operations over the state that the commands share: receiving what the host sends, the fatal
assertion, raising InvalidInput, the admission checks, the response, the slots, what a command leaves unspecified, and
reset. -/

namespace Sys2Proof.Machine

/-- The three outcomes of a command on this machine. -/
abbrev Result := Host.Outcome State Fault Refusal

/-- The host's next event, and the state in which the CORE has received it; none when the host sends no more
(20_memory.md R72; 70_reset_and_hazards.md R292). -/
def State.receive (s : State) : Option (HostEvent × State) :=
  match s.input with
  | [] => none
  | e :: rest => some (e, { s with input := rest })

/-- The fatal assertion at the start of a command (60_exceptions.md R255). -/
def State.guarded (s : State) (run : Result) : Result := if s.consistent then run else .fault .fatalAssert

/-- `raise InvalidInput`: the only effect is the response `INVALID_INPUT`. It saves nothing, changes no mode and
transfers control nowhere (60_exceptions.md R253, R258); there is nothing to return from or to restore: after it the
CORE accepts the next command (R259). -/
def State.raiseInvalidInput (s : State) : Result :=
  .next { s with responses := s.responses ++ [.invalidInput] }

/-- The answer to an illegal packet (30_encoding.md R99). -/
def State.rejectPacket (s : State) : Result := s.guarded s.raiseInvalidInput

/-- The end of a command that succeeded: the response `OK` with the output bytes (30_encoding.md R96). -/
def State.complete (s : State) (out : ByteString) : Result :=
  .next { s with responses := s.responses ++ [.ok out], serial := s.serial + 1 }

/-- Admission to a command that needs an active Context: the slot exists and the Context `ctxOf` picks from it is active
(60_exceptions.md R251 causes 5, 8, 9; R256 checks 4, 8). -/
def State.admitActive {α : Type} (s : State) (slot : Option α) (ctxOf : α → Context) (run : α → Result) : Result :=
  match slot with
  | none => s.raiseInvalidInput
  | some a => if (ctxOf a).isActive then run a else s.raiseInvalidInput

/-- Admission to UPDATE and HMAC_UPDATE, in the order of 60_exceptions.md R256: the slot, the length operand, the
status, and last the length bound, beyond which the command is refused (R265). -/
def State.admitData {α : Type} (s : State) (slot : Option α) (ctxOf : α → Context) (len : BitVec 32) (data : ByteString)
    (run : α → Result) : Result :=
  match slot with
  | none => s.raiseInvalidInput
  | some a =>
    if lengthLegal len data then
      if (ctxOf a).isActive then
        if (ctxOf a).withinBound data.length then run a else .refused .lengthOutOfScope
      else s.raiseInvalidInput
    else s.raiseInvalidInput

/-- Write plain slot `c`. -/
def State.putCtx (s : State) (c : Nat) (X : Context) : State := { s with ctx := s.ctx.set c X }

/-- Write HMAC slot `h`. -/
def State.putHctx (s : State) (h : Nat) (Y : HmacContext) : State := { s with hctx := s.hctx.set h Y }

/-- The datapath holds unspecified contents after a command that used it (10_state.md R39), and is kept by one that did
not (DEDUCED, unsafe: assumption log 10). -/
def State.releaseDatapath (s : State) (used : Bool) : State :=
  if used then { s with datapath := Datapath.unspecified s.serial } else s

/-- `SCR` holds unspecified contents after a command that used it (10_state.md R34). With `used` false it is kept: R39
calls it unspecified between all commands, so keeping it through a command that does not use it is the model's choice
(DEDUCED, unsafe: assumption log 22). -/
def State.releaseScr (s : State) (used : Bool) : State :=
  if used then { s with scr := scrUnspecified s.serial } else s

/-- `HSCR` holds unspecified contents after a command that used it (10_state.md R34); every other command keeps it
(DEDUCED, unsafe: assumption log 22). -/
def State.releaseHscr (s : State) : State := { s with hscr := hscrUnspecified s.serial }

/-- A buffer of which the first `k` bytes are meaningful and the rest are unspecified (10_state.md R25). -/
@[irreducible] def meaningfulBytes (buf : Block) (k n : Nat) (o : Owner) : Block :=
  Vector.ofFn fun i => if i.val < k then buf[i] else Config.freeBits 8 n o .buf i.val

/-- The bytes of `buf` at indices `fill` and above are stale: unspecified between commands (10_state.md R25, R39). -/
def Context.settle (X : Context) (n : Nat) (o : Owner) : Context :=
  { X with buf := meaningfulBytes X.buf X.fill.toNat n o }

/-- Reset, asserted by the host: the reset state over the same numbers of slots (70_reset_and_hazards.md R280, R281). -/
def State.takeReset (s : State) : State :=
  State.afterReset s.ctx.length s.hctx.length s.serial s.input s.responses

end Sys2Proof.Machine
end

