-- ==== Sys2Proof/Machine/Compress.lean ====
section
/-! DEFINITION. The command COMPRESS (40_compressor.md R146). -/

namespace Sys2Proof.Machine

/-- `COMPRESS state, block`: no slot is read or written; a decoded COMPRESS cannot fail (R146). -/
def execCompress (V : HashState) (block : Block) (s : State) : Result :=
  s.guarded ((s.releaseDatapath true).complete (digestBytes (compress V block)))

end Sys2Proof.Machine
end

