-- ==== Sys2Proof/Machine/Hasher.lean ====
section
/-! DEFINITION. The StreamingHasher (41_streaming_hasher.md): the procedures INIT, UPDATE, FINALIZE on a Context, and
the commands INIT, UPDATE, FINALIZE, HASH. -/

namespace Sys2Proof.Machine

/-- `Append(X, b)`: store at index `fill`; the 64th byte compresses the whole buffer and empties it (R180). -/
def Context.append (X : Context) (b : Byte) : Context :=
  if X.fill = 63 then
    { X with
      buf := stored X.buf X.fill.toNat b
      V := compress X.V (stored X.buf X.fill.toNat b)
      fill := 0 }
  else
    { X with
      buf := stored X.buf X.fill.toNat b
      fill := X.fill + 1 }

/-- Append a byte string, in increasing index order. -/
def Context.appendAll (X : Context) (bs : ByteString) : Context := bs.foldl Context.append X

/-- `INIT(X)`: `V` is the IV, the buffer is empty, the length is 0, the status is active (R181). -/
def Context.start (X : Context) : Context := { X with V := iv, fill := 0, total := 0, st := Status.active }

/-- Append one message byte and count it (R182; 10_state.md R27). -/
def Context.absorbByte (X : Context) (b : Byte) : Context :=
  { X.append b with total := (X.append b).total + 1 }

/-- `UPDATE(X, data)` (R182). -/
def Context.absorb (X : Context) (data : ByteString) : Context := data.foldl Context.absorbByte X

/-- FINALIZE's loop: append zeros until `fill` is 56, at most `fuel` of them (R185). -/
def Context.zeroPad : Nat → Context → Context
  | 0, X => X
  | fuel + 1, X => if X.fill = 56 then X else Context.zeroPad fuel (X.append 0x00)

/-- FINALIZE's padding: `0x80`, zeros to 56 mod 64 (at most 63 of them, 70_reset_and_hazards.md R291), and the 64-bit
big-endian bit length, taken from `total` (R185; 20_memory.md R64). -/
def Context.pad (X : Context) : Context :=
  (Context.zeroPad 63 (X.append 0x80)).appendAll (lengthField (8 * X.total))

/-- The 32 bytes `FINALIZE(X)` returns (R185). -/
def Context.finalize (X : Context) : ByteString := digestBytes X.pad.V

/-- `INIT; UPDATE; FINALIZE` on the Context: the 32 bytes `HASH` returns when run on it (R189). -/
def Context.hash (X : Context) (data : ByteString) : ByteString := (X.start.absorb data).finalize

/-- What UPDATE leaves in its Context between commands; an empty UPDATE changes nothing (R182), the stale bytes of `buf`
included (DEDUCED, unsafe: assumption log 20). -/
def Context.updated (X : Context) (n : Nat) (o : Owner) (data : ByteString) : Context :=
  if data.isEmpty then X else (X.absorb data).settle n o

/-- UPDATE of `data` completes a block, so uses the datapath (R182: `floor((fill + LEN) / 64)` compressions). -/
def Context.fillsBlock (X : Context) (data : ByteString) : Bool := decide (64 ≤ X.fill.toNat + data.length)

/-- `INIT c`: legal in every status of the slot (R181). -/
def execInit (c : BitVec 8) (s : State) : Result :=
  s.guarded (match s.ctx[slotIndex c]? with
    | none => s.raiseInvalidInput
    | some X => (s.putCtx (slotIndex c) (X.start.settle s.serial (.ctx (slotIndex c)))).complete [])

/-- `UPDATE c, data` (R182). -/
def execUpdate (c : BitVec 8) (len : BitVec 32) (data : ByteString) (s : State) : Result :=
  s.guarded (s.admitData s.ctx[slotIndex c]? id len data fun X =>
    ((s.putCtx (slotIndex c) (X.updated s.serial (.ctx (slotIndex c)) data)).releaseDatapath
      (X.fillsBlock data)).complete [])

/-- `FINALIZE c`: the digest is in the response only; of the slot only `st = ST_FINAL` is defined afterwards (R185;
10_state.md R29). -/
def execFinalize (c : BitVec 8) (s : State) : Result :=
  s.guarded (s.admitActive s.ctx[slotIndex c]? id fun X =>
    ((s.putCtx (slotIndex c) (Context.unspecified s.serial (.ctx (slotIndex c)) Status.final)).releaseDatapath
      true).complete X.finalize)

/-- `HASH data`, on the scratch Context (R189); `HSCR` is kept (assumption log 22). -/
def execHash (len : BitVec 32) (data : ByteString) (s : State) : Result :=
  s.guarded (if lengthLegal len data then
      ((s.releaseScr true).releaseDatapath true).complete (s.scr.hash data)
    else s.raiseInvalidInput)

end Sys2Proof.Machine
end

