-- ==== Sys2Proof/Machine/Hmac.lean ====
section
/-! DEFINITION. HMAC-SM3 (42_hmac.md): the key scheduler, and the commands HMAC_INIT, HMAC_UPDATE, HMAC_FINISH, HMAC. -/

namespace Sys2Proof.Machine

/-- The key test: a key of more than 64 bytes is hashed first (R220). -/
def keyOversized (key : ByteString) : Bool := decide (hmacBlockLength < key.length)

/-- A string of at most 64 bytes, right-padded with zeros to exactly 64 (R220). -/
@[irreducible] def rightPadded (k : ByteString) : Block := Vector.ofFn fun i => byteAt k i.val

/-- `K0`: the key, hashed on the scratch Context `scr` if oversized, right-padded (R220). -/
def keyBlock (scr : Context) (key : ByteString) : Block :=
  rightPadded (if keyOversized key then scr.hash key else key)

/-- A pad: `K0` XOR the pad byte repeated 64 times (R221). -/
@[irreducible] def padOf (k0 : Block) (b : Byte) : Block := k0.map fun x => x ^^^ b

/-- `HMAC_INIT(Y, key)` (R222); `outer` is not touched. -/
def HmacContext.start (Y : HmacContext) (scr : Context) (key : ByteString) : HmacContext :=
  let k0 := keyBlock scr key
  { Y with
    ipad := padOf k0 ipadByte
    opad := padOf k0 opadByte
    inner := Y.inner.start.absorb (padOf k0 ipadByte).toList }

/-- `HMAC_UPDATE(Y, data)` (R223). -/
def HmacContext.absorb (Y : HmacContext) (data : ByteString) : HmacContext :=
  { Y with inner := Y.inner.absorb data }

/-- The 32 bytes `HMAC_FINISH(Y)` returns: the hash of `opad` and the inner digest (R224). -/
def HmacContext.finish (Y : HmacContext) : ByteString :=
  ((Y.outer.start.absorb Y.opad.toList).absorb Y.inner.finalize).finalize

/-- `HMAC_INIT h, key`: legal in every status of the slot (R222). `HSCR` is kept, and `SCR` too with a key of at most 64
bytes, which is not hashed (assumption log 22). -/
def execHmacInit (h : BitVec 8) (len : BitVec 32) (key : ByteString) (s : State) : Result :=
  s.guarded (match s.hctx[slotIndex h]? with
    | none => s.raiseInvalidInput
    | some Y =>
      if lengthLegal len key then
        (((s.putHctx (slotIndex h)
            { Y.start s.scr key with
              inner := (Y.start s.scr key).inner.settle s.serial (.inner (slotIndex h)) }).releaseScr
          (keyOversized key)).releaseDatapath true).complete []
      else s.raiseInvalidInput)

/-- `HMAC_UPDATE h, data`: forwarded to the inner hasher (R223). -/
def execHmacUpdate (h : BitVec 8) (len : BitVec 32) (data : ByteString) (s : State) : Result :=
  s.guarded (s.admitData s.hctx[slotIndex h]? HmacContext.inner len data fun Y =>
    ((s.putHctx (slotIndex h)
        { Y with inner := Y.inner.updated s.serial (.inner (slotIndex h)) data }).releaseDatapath
      (Y.inner.fillsBlock data)).complete [])

/-- `HMAC_FINISH h`: both statuses become `ST_FINAL`, the other fields of both Contexts are unspecified, the pads are
kept (R224; 10_state.md R32, R33). -/
def execHmacFinish (h : BitVec 8) (s : State) : Result :=
  s.guarded (s.admitActive s.hctx[slotIndex h]? HmacContext.inner fun Y =>
    ((s.putHctx (slotIndex h)
        { Y with
          inner := Context.unspecified s.serial (.inner (slotIndex h)) Status.final
          outer := Context.unspecified s.serial (.outer (slotIndex h)) Status.final }).releaseDatapath
      true).complete Y.finish)

/-- `HMAC key, data`, on the scratch HmacContext (R225). `SCR` is kept with a key of at most 64 bytes, which is not hashed
(assumption log 22). -/
def execHmac (klen mlen : BitVec 32) (key data : ByteString) (s : State) : Result :=
  s.guarded (if lengthLegal klen key && lengthLegal mlen data then
      ((s.releaseHscr.releaseScr (keyOversized key)).releaseDatapath true).complete
        ((s.hscr.start s.scr key).absorb data).finish
    else s.raiseInvalidInput)

end Sys2Proof.Machine
end

