-- ==== Sys2Proof/Machine/Dispatch.lean ====
section
/-! DEFINITION. The meaning of each decoded command, one arm per constructor of Instr. -/

namespace Sys2Proof.Machine

def exec (i : Instr) (s : State) : Host.Outcome State Fault Refusal :=
  match i with
  | .compress state block => Sys2Proof.Machine.execCompress state block s
  | .init c => Sys2Proof.Machine.execInit c s
  | .update c len data => Sys2Proof.Machine.execUpdate c len data s
  | .finalize c => Sys2Proof.Machine.execFinalize c s
  | .hash len data => Sys2Proof.Machine.execHash len data s
  | .hmacInit h len key => Sys2Proof.Machine.execHmacInit h len key s
  | .hmacUpdate h len data => Sys2Proof.Machine.execHmacUpdate h len data s
  | .hmacFinish h => Sys2Proof.Machine.execHmacFinish h s
  | .hmac klen mlen key data => Sys2Proof.Machine.execHmac klen mlen key data s

end Sys2Proof.Machine
end

