-- ==== Sys2Proof/Machine/Step.lean ====
section
/-! DEFINITION. One step: the CORE receives what the host sends next and acts on it (00_scope.md R9, R10). -/

namespace Sys2Proof.Machine

/-- One packet: decoded and run, or rejected (30_encoding.md R91, R99, R106). -/
def runPacket (p : ByteString) (s : State) : Host.Outcome State Fault Refusal :=
  match decode p with
  | .ok i => exec i s
  | .error _ => s.rejectPacket

/-- One step of the machine: one command from packet to response, or one reset; with a host that sends nothing the CORE
waits and nothing changes (00_scope.md R9; 70_reset_and_hazards.md R280, R291, R292). -/
def step (s : State) : Host.Outcome State Fault Refusal :=
  match s.receive with
  | none => .next s
  | some (.reset, s') => .next s'.takeReset
  | some (.packet p, s') => runPacket p s'

/-- The state in which the packet of an opcode-table word is what the host sends next. -/
def State.withFetchWord (s : State) (nbits w : Nat) : State :=
  { s with input := .packet (tablePacket nbits w) :: s.input }

end Sys2Proof.Machine
end

