-- ==== Sys2Proof/Machine/Assembly.lean ====
section
/-! DEFINITION. The assembler syntax of 30_encoding.md R104: the lines of a program as data, the packet a line stands
for, the text it is written as, and the text of a response. No meaning of a command reads this file. -/

namespace Sys2Proof.Machine

/-- Text, as its characters. -/
abbrev Text := List Char

/-- A byte string as it is written: quoted ASCII characters, or `x` and quoted pairs of hexadecimal digits, either with
`*n` for `n` repetitions (R104). -/
structure StringSpelling where
  base : Text ⊕ ByteString
  times : Option Nat
  deriving DecidableEq, Repr

/-- A byte-string operand with a length: the length is that of the string unless a deliberately wrong one is written
`LEN=<n>` before it (R104). -/
structure LengthSpelling where
  len : Option Int
  string : StringSpelling
  deriving DecidableEq, Repr

/-- One line of a program: a mnemonic and its operands in the order of 30_encoding.md R90 (R104). -/
inductive Line where
  | compress (state : HashState) (block : StringSpelling)
  | init (c : BitVec 8)
  | update (c : BitVec 8) (data : LengthSpelling)
  | finalize (c : BitVec 8)
  | hash (data : LengthSpelling)
  | hmacInit (h : BitVec 8) (key : LengthSpelling)
  | hmacUpdate (h : BitVec 8) (data : LengthSpelling)
  | hmacFinish (h : BitVec 8)
  | hmac (key data : LengthSpelling)
  deriving DecidableEq, Repr

/-! ### What a line stands for -/

/-- The bytes of a written byte string (R104). -/
def StringSpelling.bytes (s : StringSpelling) : ByteString :=
  let once := match s.base with
    | .inl chars => chars.map fun ch => BitVec.ofNat 8 ch.toNat
    | .inr bytes => bytes
  (List.replicate (s.times.getD 1) once).flatten

/-- The length word of an operand: the length of the string, or the written one in two's complement (R94, R104). -/
def LengthSpelling.word (s : LengthSpelling) : BitVec 32 :=
  match s.len with
  | none => BitVec.ofNat 32 s.string.bytes.length
  | some n => BitVec.ofInt 32 n

/-- The packet a line stands for (R93, R104). -/
def Line.packet : Line → ByteString
  | .compress V block => wordBytes (headerWord .compress 0) ++ digestBytes V ++ block.bytes
  | .init c => encode (.init c)
  | .update c d => encode (.update c d.word d.string.bytes)
  | .finalize c => encode (.finalize c)
  | .hash d => encode (.hash d.word d.string.bytes)
  | .hmacInit h k => encode (.hmacInit h k.word k.string.bytes)
  | .hmacUpdate h d => encode (.hmacUpdate h d.word d.string.bytes)
  | .hmacFinish h => encode (.hmacFinish h)
  | .hmac k d => encode (.hmac k.word d.word k.string.bytes d.string.bytes)

/-! ### How it is written -/

/-- The hexadecimal digit of a number below 16. -/
def hexDigit (n : Nat) : Char :=
  ['0', '1', '2', '3', '4', '5', '6', '7', '8', '9', 'a', 'b', 'c', 'd', 'e', 'f'].getD (n % 16) '0'

/-- The two hexadecimal digits of a byte. -/
def hexByte (b : Byte) : Text := [hexDigit (b.toNat / 16), hexDigit b.toNat]

/-- The hexadecimal digits of a byte string. -/
def hexText (bs : ByteString) : Text := bs.flatMap hexByte

/-- Pieces of text with a separator between them. -/
def joined (sep : Text) (pieces : List Text) : Text := (pieces.intersperse sep).flatten

/-- Quoted text. -/
def quoted (t : Text) : Text := ['"'] ++ t ++ ['"']

/-- A decimal number. -/
def decimal (n : Nat) : Text := Nat.toDigits 10 n

/-- A decimal number with its sign. -/
def signedDecimal (n : Int) : Text := if n < 0 then '-' :: decimal n.natAbs else decimal n.natAbs

/-- Eight 8-digit hexadecimal words separated by spaces (R104). -/
def wordsText (V : HashState) : Text := joined [' '] (V.toList.map fun w => hexText (wordBytes w))

/-- The text of a byte string (R104). -/
def StringSpelling.text (s : StringSpelling) : Text :=
  (match s.base with
    | .inl chars => quoted chars
    | .inr bytes => 'x' :: quoted (hexText bytes))
  ++ (match s.times with
    | none => []
    | some n => '*' :: decimal n)

/-- The text of a byte-string operand (R104). -/
def LengthSpelling.text (s : LengthSpelling) : Text :=
  (match s.len with
    | none => []
    | some n => ['L', 'E', 'N', '='] ++ signedDecimal n ++ [' '])
  ++ s.string.text

/-- The mnemonic of a line (30_encoding.md R90). -/
def Line.mnemonic : Line → String
  | .compress _ _ => "COMPRESS"
  | .init _ => "INIT"
  | .update _ _ => "UPDATE"
  | .finalize _ => "FINALIZE"
  | .hash _ => "HASH"
  | .hmacInit _ _ => "HMAC_INIT"
  | .hmacUpdate _ _ => "HMAC_UPDATE"
  | .hmacFinish _ => "HMAC_FINISH"
  | .hmac _ _ => "HMAC"

/-- The operands of a line, in order (R104). -/
def Line.operands : Line → List Text
  | .compress V block => [['['] ++ wordsText V ++ [']'], block.text]
  | .init c => [decimal c.toNat]
  | .update c d => [decimal c.toNat, d.text]
  | .finalize c => [decimal c.toNat]
  | .hash d => [d.text]
  | .hmacInit h k => [decimal h.toNat, k.text]
  | .hmacUpdate h d => [decimal h.toNat, d.text]
  | .hmacFinish h => [decimal h.toNat]
  | .hmac k d => [k.text, d.text]

/-- A line as it is written: `MNEMONIC operand, operand` (R104). -/
def Line.text (l : Line) : Text := l.mnemonic.toList ++ [' '] ++ joined [',', ' '] l.operands

/-- A response as it is written: `-> OK`, `-> OK <digest>` with the digest in 8 groups of 8 hexadecimal digits separated
by spaces, or `-> INVALID_INPUT` (R104). -/
def Response.text : Response → Text
  | .ok [] => "-> OK".toList
  | .ok (b :: out) => "-> OK ".toList
      ++ joined [' '] ((List.range 8).map fun i => hexText (wordBytes (wordAt (b :: out) (4 * i))))
  | .invalidInput => "-> INVALID_INPUT".toList

end Sys2Proof.Machine
end

