-- ==== Sys2Proof/Machine/Cost.lean ====
section
/-! DEFINITION. The only countable cost the spec gives: the number of block compressions a command performs
(70_reset_and_hazards.md R289), counted along the very appends the command makes. No meaning reads it. -/

namespace Sys2Proof.Machine

/-- The compressions appending one byte performs: one when it is the 64th (41_streaming_hasher.md R180). -/
def Context.appendCost (X : Context) : Nat := if X.fill = 63 then 1 else 0

/-- The compressions appending a byte string performs. -/
def Context.appendAllCost : Context → ByteString → Nat
  | _, [] => 0
  | X, b :: bs => X.appendCost + (X.append b).appendAllCost bs

/-- The compressions UPDATE performs. -/
def Context.absorbCost : Context → ByteString → Nat
  | _, [] => 0
  | X, b :: bs => X.appendCost + (X.absorbByte b).absorbCost bs

/-- The compressions FINALIZE's zero loop performs. -/
def Context.zeroPadCost : Nat → Context → Nat
  | 0, _ => 0
  | fuel + 1, X => if X.fill = 56 then 0 else X.appendCost + Context.zeroPadCost fuel (X.append 0x00)

/-- The compressions FINALIZE performs. -/
def Context.finalizeCost (X : Context) : Nat :=
  X.appendCost + Context.zeroPadCost 63 (X.append 0x80)
    + (Context.zeroPad 63 (X.append 0x80)).appendAllCost (lengthField (8 * X.total))

/-- The compressions HASH performs on a scratch Context. -/
def Context.hashCost (X : Context) (data : ByteString) : Nat :=
  X.start.absorbCost data + (X.start.absorb data).finalizeCost

/-- The compressions HMAC_INIT performs. -/
def HmacContext.startCost (Y : HmacContext) (scr : Context) (key : ByteString) : Nat :=
  (if keyOversized key then scr.hashCost key else 0)
    + Y.inner.start.absorbCost (padOf (keyBlock scr key) ipadByte).toList

/-- The compressions HMAC_FINISH performs. -/
def HmacContext.finishCost (Y : HmacContext) : Nat :=
  Y.inner.finalizeCost + Y.outer.start.absorbCost Y.opad.toList
    + (Y.outer.start.absorb Y.opad.toList).absorbCost Y.inner.finalize
    + ((Y.outer.start.absorb Y.opad.toList).absorb Y.inner.finalize).finalizeCost

/-- The compressions HMAC performs on a scratch HmacContext. -/
def HmacContext.oneShotCost (Y : HmacContext) (scr : Context) (key data : ByteString) : Nat :=
  Y.startCost scr key + (Y.start scr key).inner.absorbCost data + ((Y.start scr key).absorb data).finishCost

/-- The compressions a command performs when it is admitted (70_reset_and_hazards.md R289). -/
def commandCost (i : Instr) (s : State) : Nat :=
  match i with
  | .compress _ _ => 1
  | .init _ => 0
  | .update c _ data => (s.ctx[slotIndex c]?.map fun X => X.absorbCost data).getD 0
  | .finalize c => (s.ctx[slotIndex c]?.map Context.finalizeCost).getD 0
  | .hash _ data => s.scr.hashCost data
  | .hmacInit h _ key => (s.hctx[slotIndex h]?.map fun Y => Y.startCost s.scr key).getD 0
  | .hmacUpdate h _ data => (s.hctx[slotIndex h]?.map fun Y => Y.inner.absorbCost data).getD 0
  | .hmacFinish h => (s.hctx[slotIndex h]?.map HmacContext.finishCost).getD 0
  | .hmac _ _ key data => s.hscr.oneShotCost s.scr key data

end Sys2Proof.Machine
end

