-- ==== Sys2Proof/Safety.lean ====
section
/-! DEFINITION. The terms claims are stated in: what the host can observe, the invariant of the machine, a safe run,
and the spec's closed forms of the digest and the tag (41_streaming_hasher.md R187; 42_hmac.md R225), written without the
streaming machine. -/

namespace Sys2Proof.Machine

/-- The meaningful bytes of the buffer, `buf[0..fill)` (10_state.md R25). -/
def Context.content (X : Context) : ByteString := X.buf.toList.take X.fill.toNat

/-- What is defined of a Context: its status, and, while it is active, `V`, `buf[0..fill)`, `fill` and `total`
(10_state.md R29, R39). -/
structure ContextView where
  st : Status
  live : Option (HashState × ByteString × BitVec 6 × BitVec 64)
  deriving DecidableEq, Repr

/-- See `ContextView`. -/
def Context.view (X : Context) : ContextView where
  st := X.st
  live := if X.isActive then some (X.V, X.content, X.fill, X.total) else none

/-- What is defined of an HMAC slot: the views of its Contexts, and, while it is active, `opad`, which HMAC_FINISH has
still to read (10_state.md R33, R39). -/
structure HmacView where
  inner : ContextView
  outer : ContextView
  opad : Option Block
  deriving DecidableEq, Repr

/-- See `HmacView`. -/
def HmacContext.view (Y : HmacContext) : HmacView where
  inner := Y.inner.view
  outer := Y.outer.view
  opad := if Y.inner.isActive then some Y.opad else none

/-- What is defined of the machine: the views of its slots, what the host will send, and the responses it has received.
Everything else is hidden state (10_state.md R39; 70_reset_and_hazards.md R292). -/
structure StateView where
  ctx : List ContextView
  hctx : List HmacView
  input : List HostEvent
  responses : List Response
  deriving DecidableEq, Repr

/-- See `StateView`. -/
def State.view (s : State) : StateView where
  ctx := s.ctx.map Context.view
  hctx := s.hctx.map HmacContext.view
  input := s.input
  responses := s.responses

/-- Two outcomes that nothing defined tells apart. -/
def SameOutcome : Result → Result → Prop
  | .next s, .next t => s.view = t.view
  | .fault e, .fault f => e = f
  | .refused e, .refused f => e = f
  | _, _ => False

/-- Run decoded commands in order, stopping at the first that has no next state. -/
def execAll : List Instr → State → Result
  | [], s => .next s
  | i :: is, s =>
    match exec i s with
    | .next t => execAll is t
    | .fault f => .fault f
    | .refused r => .refused r

/-- A Context as the commands keep it: `st` is not 3 and, while it is active, `fill = total mod 64` (10_state.md R26)
and `total` is in scope (60_exceptions.md R265). -/
def Context.wellKept (X : Context) : Bool :=
  X.consistent && (!X.isActive || decide (X.total.toNat < maxTotal))

/-- An HMAC slot as the commands keep it: the inner Context is well kept and, while it is active, counts the 64 bytes of
`ipad` (42_hmac.md R222); the outer Context is `ST_UNINIT` or `ST_FINAL`, and is the one or the other whenever the inner
Context is (10_state.md R33). -/
def HmacContext.wellKept (Y : HmacContext) : Bool :=
  Y.inner.wellKept
    && (!Y.inner.isActive || decide (64 ≤ Y.inner.total.toNat))
    && (decide (Y.outer.st = Status.uninit) || decide (Y.outer.st = Status.final))
    && (decide (Y.inner.st ≠ Status.uninit) || decide (Y.outer.st = Status.uninit))
    && (decide (Y.inner.st ≠ Status.final) || decide (Y.outer.st = Status.final))

/-- A response is 1 or 33 bytes long (30_encoding.md R96). -/
def Response.wellShaped (r : Response) : Bool := decide (r.packet.length = 1) || decide (r.packet.length = 33)

/-- The invariant of the machine: 1 to 256 slots of either kind (00_scope.md R5), every slot well kept, every response
of a legal length. -/
structure State.Inv (s : State) : Prop where
  ctxCount : 1 ≤ s.ctx.length ∧ s.ctx.length ≤ 256
  hctxCount : 1 ≤ s.hctx.length ∧ s.hctx.length ≤ 256
  ctxKept : s.ctx.all Context.wellKept = true
  hctxKept : s.hctx.all HmacContext.wellKept = true
  shaped : s.responses.all Response.wellShaped = true

/-- A run from `s` that never faults, however long (60_exceptions.md R255: such states are unreachable). -/
def State.NeverFaults (s : State) : Prop := ∀ (k : Nat) (f : Fault), Host.Core.run Sys2Proof.core k s ≠ .fault f

/-- Block `i` of a byte string: its bytes `64 i` to `64 i + 63`. -/
@[irreducible] def blockAt (S : ByteString) (i : Nat) : Block := Vector.ofFn fun k => byteAt S (64 * i + k.val)

/-- `V_q` of the chain `V_i = compress(V_(i-1), S_i)` over the first `q` blocks of `S` (41_streaming_hasher.md R187). -/
def chain (V : HashState) (S : ByteString) (q : Nat) : HashState :=
  (List.range q).foldl (fun W i => compress W (blockAt S i)) V

/-- `0x80 ‖ 0x00^k ‖ be64(8 n)` with `k = (55 - n) mod 64` (41_streaming_hasher.md R186, R187). -/
def padding (n : Nat) : ByteString :=
  0x80 :: (List.replicate ((119 - n % 64) % 64) 0x00 ++ bigEndian 8 (8 * n))

/-- The number of blocks of the padded message: `floor(n/64) + 1` when `n mod 64 <= 55` and one more otherwise
(41_streaming_hasher.md R187). -/
def blockCount (n : Nat) : Nat := if n % 64 ≤ 55 then n / 64 + 1 else n / 64 + 2

/-- The digest of a message (41_streaming_hasher.md R187). -/
def messageDigest (M : ByteString) : ByteString :=
  digestBytes (chain iv (M ++ padding M.length) (blockCount M.length))

/-- `K0` in closed form (42_hmac.md R220). -/
def normalisedKey (key : ByteString) : ByteString :=
  let k := if 64 < key.length then messageDigest key else key
  k ++ List.replicate (64 - k.length) 0x00

/-- The pad of a key in closed form: `K0 XOR (b × 64)` (42_hmac.md R221). -/
def keyPad (key : ByteString) (b : Byte) : ByteString := (normalisedKey key).map fun x => x ^^^ b

/-- The tag in closed form: `H( opad ‖ H( ipad ‖ data ) )` (42_hmac.md R225). -/
def messageTag (key data : ByteString) : ByteString :=
  messageDigest (keyPad key 0x5c ++ messageDigest (keyPad key 0x36 ++ data))

/-- The packet is illegal: 30_encoding.md R99 (a) to (g), (d) for the slotless commands only, in the words of the rule
over the packet's bytes. -/
def PacketIllegal (p : ByteString) : Prop :=
  let hd := memRead p 0 4
  let opc := hd / 2 ^ 28
  let slot := hd / 2 ^ 20 % 256
  let rsv := hd % 2 ^ 20
  let w1 := memRead p 4 4
  let w2 := memRead p 8 4
  p.length < 4
  ∨ (opc = 0 ∨ 10 ≤ opc)
  ∨ rsv ≠ 0
  ∨ ((opc = 1 ∨ opc = 5 ∨ opc = 9) ∧ slot ≠ 0)
  ∨ ((opc = 3 ∨ opc = 5 ∨ opc = 6 ∨ opc = 7) ∧ (p.length < 8 ∨ 2 ^ 31 ≤ w1 ∨ p.length ≠ 8 + w1))
  ∨ (opc = 9 ∧ (p.length < 12 ∨ 2 ^ 31 ≤ w1 ∨ 2 ^ 31 ≤ w2 ∨ p.length ≠ 12 + w1 + w2))
  ∨ ((opc = 2 ∨ opc = 4 ∨ opc = 8) ∧ p.length ≠ 4)
  ∨ (opc = 1 ∧ p.length ≠ 100)

/-- A length operand that is negative or is not the length of its string (60_exceptions.md R251 causes 6 and 7). -/
def LengthBad (len : BitVec 32) (data : ByteString) : Prop :=
  2 ^ 31 ≤ len.toNat ∨ data.length ≠ len.toNat

/-- A decoded command has a cause of InvalidInput: rows 5 to 9 of the table of 60_exceptions.md R251. -/
def InvalidCause (s : State) : Instr → Prop
  | .compress _ _ => False
  | .init c => s.ctx.length ≤ c.toNat
  | .update c len data =>
      s.ctx.length ≤ c.toNat ∨ LengthBad len data ∨ ∃ X, s.ctx[c.toNat]? = some X ∧ X.st ≠ Status.active
  | .finalize c => s.ctx.length ≤ c.toNat ∨ ∃ X, s.ctx[c.toNat]? = some X ∧ X.st ≠ Status.active
  | .hash len data => LengthBad len data
  | .hmacInit h len key => s.hctx.length ≤ h.toNat ∨ LengthBad len key
  | .hmacUpdate h len data =>
      s.hctx.length ≤ h.toNat ∨ LengthBad len data ∨ ∃ Y, s.hctx[h.toNat]? = some Y ∧ Y.inner.st ≠ Status.active
  | .hmacFinish h => s.hctx.length ≤ h.toNat ∨ ∃ Y, s.hctx[h.toNat]? = some Y ∧ Y.inner.st ≠ Status.active
  | .hmac klen mlen key data => LengthBad klen key ∨ LengthBad mlen data

/-- A decoded command would bring the total of its Context to 2^61 bytes or more (60_exceptions.md R265). -/
def OutOfScope (s : State) : Instr → Prop
  | .update c _ data => ∃ X, s.ctx[c.toNat]? = some X ∧ 2 ^ 61 ≤ X.total.toNat + data.length
  | .hmacUpdate h _ data => ∃ Y, s.hctx[h.toNat]? = some Y ∧ 2 ^ 61 ≤ Y.inner.total.toNat + data.length
  | .compress _ _ => False
  | .init _ => False
  | .finalize _ => False
  | .hash _ _ => False
  | .hmacInit _ _ _ => False
  | .hmacFinish _ => False
  | .hmac _ _ _ _ => False

/-- The plain slot a command names (30_encoding.md R95). -/
def plainSlotOf : Instr → Option Nat
  | .init c => some c.toNat
  | .update c _ _ => some c.toNat
  | .finalize c => some c.toNat
  | .compress _ _ => none
  | .hash _ _ => none
  | .hmacInit _ _ _ => none
  | .hmacUpdate _ _ _ => none
  | .hmacFinish _ => none
  | .hmac _ _ _ _ => none

/-- The HMAC slot a command names (30_encoding.md R95). -/
def hmacSlotOf : Instr → Option Nat
  | .hmacInit h _ _ => some h.toNat
  | .hmacUpdate h _ _ => some h.toNat
  | .hmacFinish h => some h.toNat
  | .compress _ _ => none
  | .init _ => none
  | .update _ _ _ => none
  | .finalize _ => none
  | .hash _ _ => none
  | .hmac _ _ _ _ => none

/-- The command answers `OK` with 32 output bytes, rather than none (30_encoding.md R96). -/
def givesDigest : Instr → Bool
  | .compress _ _ => true
  | .finalize _ => true
  | .hash _ _ => true
  | .hmacFinish _ => true
  | .hmac _ _ _ _ => true
  | .init _ => false
  | .update _ _ _ => false
  | .hmacInit _ _ _ => false
  | .hmacUpdate _ _ _ => false

/-- The opcode map: the command, `match`, `mask` (30_encoding.md R98). -/
def opcodeMap : List (Opcode × Word × Word) :=
  [(.compress, 0x10000000, 0xFFFFFFFF), (.init, 0x20000000, 0xF00FFFFF), (.update, 0x30000000, 0xF00FFFFF),
   (.finalize, 0x40000000, 0xF00FFFFF), (.hash, 0x50000000, 0xFFFFFFFF), (.hmacInit, 0x60000000, 0xF00FFFFF),
   (.hmacUpdate, 0x70000000, 0xF00FFFFF), (.hmacFinish, 0x80000000, 0xF00FFFFF), (.hmac, 0x90000000, 0xFFFFFFFF)]

/-- No slot and nothing the host has still to send is changed. -/
def NoSlotChanged (s t : State) : Prop := t.ctx = s.ctx ∧ t.hctx = s.hctx ∧ t.input = s.input

/-- No slot but plain slot `c`, and nothing the host has still to send, is changed. -/
def OnlyCtxChanged (s t : State) (c : Nat) : Prop :=
  t.ctx.length = s.ctx.length ∧ (∀ d, d ≠ c → t.ctx[d]? = s.ctx[d]?) ∧ t.hctx = s.hctx ∧ t.input = s.input

/-- No slot but HMAC slot `h`, and nothing the host has still to send, is changed. -/
def OnlyHctxChanged (s t : State) (h : Nat) : Prop :=
  t.hctx.length = s.hctx.length ∧ (∀ g, g ≠ h → t.hctx[g]? = s.hctx[g]?) ∧ t.ctx = s.ctx ∧ t.input = s.input

/-- The command answered `OK` with these output bytes. -/
def Answered (s t : State) (out : ByteString) : Prop := t.responses = s.responses ++ [.ok out]

/-- The response `INVALID_INPUT` is all that a rejected command adds (60_exceptions.md R253). -/
def State.rejected (s : State) : State := { s with responses := s.responses ++ [.invalidInput] }

/-- The same state with other responses received so far. -/
def State.withResponses (s : State) (R : List Response) : State := { s with responses := R }

/-- The Context `X'` is the Context `X` after `data` has been absorbed, in block form (41_streaming_hasher.md R183):
with `S = buf[0..fill) ‖ data`, every whole block of `S` is compressed, the rest is buffered, `total` grows by
`len(data)`, and the status is kept. -/
def AbsorbedTo (X : Context) (data : ByteString) (X' : Context) : Prop :=
  let S := X.content ++ data
  X'.V = chain X.V S (S.length / 64)
    ∧ X'.content = S.drop (64 * (S.length / 64))
    ∧ X'.fill.toNat = S.length % 64
    ∧ X'.total.toNat = X.total.toNat + data.length
    ∧ X'.st = X.st

/-- The digest FINALIZE gives for a Context, by its fill count `f` at the start (41_streaming_hasher.md R186): one more
block if `f <= 55`, two otherwise. -/
def finalDigest (X : Context) : ByteString :=
  let f := X.fill.toNat
  let tail := 0x80 :: (List.replicate (if f ≤ 55 then 55 - f else 119 - f) 0x00
    ++ bigEndian 8 (8 * X.total.toNat % 2 ^ 64))
  digestBytes (chain X.V (X.content ++ tail) (if f ≤ 55 then 1 else 2))

/-- The commands that feed the pieces of a message to plain slot `c`. -/
def updatesOf (c : BitVec 8) (pieces : List ByteString) : List Instr :=
  pieces.map fun M => .update c (BitVec.ofNat 32 M.length) M

/-- The commands that feed the pieces of a message to HMAC slot `h`. -/
def hmacUpdatesOf (h : BitVec 8) (pieces : List ByteString) : List Instr :=
  pieces.map fun M => .hmacUpdate h (BitVec.ofNat 32 M.length) M

/-- A byte string one length operand can carry: at most `MAXLEN = 2^31 - 1` bytes (00_scope.md R5). -/
def Sendable (M : ByteString) : Prop := M.length < 2 ^ 31

/-- The responses, of those a run of `is` added to `before`, that the commands picked by `p` got. -/
def responsesTo (p : Instr → Bool) (is : List Instr) (before after : List Response) : List Response :=
  ((is.zip (after.drop before.length)).filter fun x => p x.1).map fun x => x.2

end Sys2Proof.Machine
end

