-- ==== Sys2Proof/Certificates/Slice0/Obligations.lean ====
section
/-! DEFINITION. The statements for the provers, each from the numbered rules of spec/ named in its docstring. -/

open Sys2Proof Sys2Proof.Machine

/-! ### The compressor -/

/-- 40_compressor.md R131: `ROTL(x, n)` by its formula, and bit `i` of `x` moves to bit `(i + n) mod 32`. -/
def Obligations.RotlMovesBitsCircularly : Prop :=
  (∀ (x : Word) (n : Nat),
    (rotl x n).toNat =
        (if n % 32 = 0 then x.toNat else x.toNat * 2 ^ (n % 32) % 2 ^ 32 + x.toNat / 2 ^ (32 - n % 32))
      ∧ ∀ i, i < 32 → (rotl x n).getLsbD ((i + n) % 32) = x.getLsbD i)
  ∧ rotl 0x80000000 1 = 0x00000001
  ∧ rotl 0x00000001 31 = 0x80000000
  ∧ rotl 0x12345678 4 = 0x23456781
  ∧ rotl 0x12345678 0 = 0x12345678
  ∧ rotl 0x12345678 32 = 0x12345678
  ∧ rotl 0xFFFFFFFF 13 = 0xFFFFFFFF

/-- 40_compressor.md R133, R134 and 90_conflicts.md C6: `P0` and `P1` bit by bit, and linear over XOR. -/
def Obligations.PermutationsAreLinear : Prop :=
  ∀ (x y : Word) (i : Nat), i < 32 →
    ((p0 x).getLsbD i = (x.getLsbD i ^^ (x.getLsbD ((i + 23) % 32) ^^ x.getLsbD ((i + 15) % 32))))
    ∧ ((p1 x).getLsbD i = (x.getLsbD i ^^ (x.getLsbD ((i + 17) % 32) ^^ x.getLsbD ((i + 9) % 32))))
    ∧ p0 (x ^^^ y) = p0 x ^^^ p0 y
    ∧ p1 (x ^^^ y) = p1 x ^^^ p1 y

/-- 40_compressor.md R135, R136: both functions are the three-way XOR in rounds 0 to 15; in rounds 16 to 63 `FF` is the
bitwise majority and `GG` the bitwise choose. -/
def Obligations.BooleanFunctionsSplitAtRound16 : Prop :=
  ∀ (j : Nat) (x y z : Word), j ≤ 63 →
    (j ≤ 15 → ff j x y z = x ^^^ y ^^^ z ∧ gg j x y z = x ^^^ y ^^^ z)
    ∧ (16 ≤ j → ∀ i, i < 32 →
        ((ff j x y z).getLsbD i
          = decide (2 ≤ (x.getLsbD i).toNat + (y.getLsbD i).toNat + (z.getLsbD i).toNat))
        ∧ ((gg j x y z).getLsbD i = if x.getLsbD i then y.getLsbD i else z.getLsbD i))

/-- 40_compressor.md R137: the table of the 64 round constants, and its two consequences: `T(j + 32) = T(j)` for
`16 <= j <= 31`, and a constant register rotated left by one each round gives the same values but between rounds 15
and 16. -/
def Obligations.RoundConstantTable : Prop :=
  (List.range 64).map roundConstant =
    [0x79cc4519, 0xf3988a32, 0xe7311465, 0xce6228cb, 0x9cc45197, 0x3988a32f, 0x7311465e, 0xe6228cbc,
     0xcc451979, 0x988a32f3, 0x311465e7, 0x6228cbce, 0xc451979c, 0x88a32f39, 0x11465e73, 0x228cbce6,
     0x9d8a7a87, 0x3b14f50f, 0x7629ea1e, 0xec53d43c, 0xd8a7a879, 0xb14f50f3, 0x629ea1e7, 0xc53d43ce,
     0x8a7a879d, 0x14f50f3b, 0x29ea1e76, 0x53d43cec, 0xa7a879d8, 0x4f50f3b1, 0x9ea1e762, 0x3d43cec5,
     0x7a879d8a, 0xf50f3b14, 0xea1e7629, 0xd43cec53, 0xa879d8a7, 0x50f3b14f, 0xa1e7629e, 0x43cec53d,
     0x879d8a7a, 0x0f3b14f5, 0x1e7629ea, 0x3cec53d4, 0x79d8a7a8, 0xf3b14f50, 0xe7629ea1, 0xcec53d43,
     0x9d8a7a87, 0x3b14f50f, 0x7629ea1e, 0xec53d43c, 0xd8a7a879, 0xb14f50f3, 0x629ea1e7, 0xc53d43ce,
     0x8a7a879d, 0x14f50f3b, 0x29ea1e76, 0x53d43cec, 0xa7a879d8, 0x4f50f3b1, 0x9ea1e762, 0x3d43cec5]
  ∧ (∀ j, 16 ≤ j → j ≤ 31 → roundConstant (j + 32) = roundConstant j)
  ∧ (∀ j, j < 63 → j ≠ 15 → roundConstant (j + 1) = rotl (roundConstant j) 1)

/-- 40_compressor.md R138 to R141: before round 0, whatever the datapath held, `W[0..15]` are the block's big-endian
words, `W[16..67]` satisfy the recurrence, `W1[j] = W[j] XOR W[j+4]`, and `A..H` are `V[0..7]`. -/
def Obligations.ScheduleFollowsRecurrence : Prop :=
  ∀ (d : Datapath) (V : HashState) (block : Block),
    let e := d.prepare V block
    (∀ i, i < 16 → element e.W i = BitVec.ofNat 32 (memRead block.toList (4 * i) 4))
    ∧ (∀ j, 16 ≤ j → j ≤ 67 →
        element e.W j
          = p1 (element e.W (j - 16) ^^^ element e.W (j - 9) ^^^ rotl (element e.W (j - 3)) 15)
            ^^^ rotl (element e.W (j - 13)) 7 ^^^ element e.W (j - 6))
    ∧ (∀ j, j < 64 → element e.W1 j = element e.W j ^^^ element e.W (j + 4))
    ∧ (e.A = V[0] ∧ e.B = V[1] ∧ e.C = V[2] ∧ e.D = V[3] ∧ e.E = V[4] ∧ e.F = V[5] ∧ e.G = V[6] ∧ e.H = V[7])

/-- 40_compressor.md R142, R143; 10_state.md R37: the 64 rounds run in the order `j = 0, ..., 63`, each on the result of
the one before by the equations of the rule; `j` is 0 before the first and 64 after the last, and the schedules stay. -/
def Obligations.RoundsFollowEquations : Prop :=
  ∀ (d : Datapath) (V : HashState) (block : Block),
    let at_ (j : Nat) := Nat.iterate Datapath.round j (d.prepare V block)
    d.run V block = at_ 64
    ∧ (d.run V block).j.toNat = 64
    ∧ ∀ j, j < 64 →
      let b := at_ j
      let a := at_ (j + 1)
      let ss1 := rotl (rotl b.A 12 + b.E + roundConstant j) 7
      let ss2 := ss1 ^^^ rotl b.A 12
      let tt1 := ff j b.A b.B b.C + b.D + ss2 + element (d.prepare V block).W1 j
      let tt2 := gg j b.E b.F b.G + b.H + ss1 + element (d.prepare V block).W j
      b.j.toNat = j
      ∧ a.D = b.C ∧ a.C = rotl b.B 9 ∧ a.B = b.A ∧ a.A = tt1
      ∧ a.H = b.G ∧ a.G = rotl b.F 19 ∧ a.F = b.E ∧ a.E = p0 tt2

/-- 40_compressor.md R144, R145, R148; 10_state.md R39: `compress` is the feed-forward XOR of the input chaining value
with the working variables after the rounds, and nothing the datapath held before is read. The pairing of `V[0]` to
`V[7]` with `A` to `H` is the spec's general knowledge (93_implementation_defined.md G4; PRESUMED, assumption log 12). -/
def Obligations.CompressReadsOnlyItsArguments : Prop :=
  ∀ (d : Datapath) (V : HashState) (block : Block),
    let e := d.run V block
    compress V block
      = #v[V[0] ^^^ e.A, V[1] ^^^ e.B, V[2] ^^^ e.C, V[3] ^^^ e.D,
           V[4] ^^^ e.E, V[5] ^^^ e.F, V[6] ^^^ e.G, V[7] ^^^ e.H]

/-! ### Byte order, operands, packets -/

/-- 20_memory.md R62, R63: the big-endian read is the sum of the rule, the big-endian write stores the bytes of the
rule and is read back, and the digest of `V` holds the 4-byte form of `V[i]` at `4 i`. -/
def Obligations.BigEndianReadAndWrite : Prop :=
  (∀ (sp : ByteString) (a n : Nat),
    memRead sp a n = ((List.range n).map fun i => (byteAt sp (a + i)).toNat * 2 ^ (8 * (n - 1 - i))).sum)
  ∧ (∀ (n v i : Nat), i < n → byteAt (bigEndian n v) i = BitVec.ofNat 8 (v / 2 ^ (8 * (n - 1 - i)) % 256))
  ∧ (∀ (n v : Nat), (bigEndian n v).length = n ∧ memRead (bigEndian n v) 0 n = v % 2 ^ (8 * n))
  ∧ (∀ (V : HashState), (digestBytes V).length = 32
      ∧ ∀ (i : Fin 8) (k : Nat), k < 4 →
          byteAt (digestBytes V) (4 * i.val + k) = byteAt (bigEndian 4 V[i].toNat) k)
  ∧ memRead [0x61, 0x62, 0x63, 0x80] 0 4 = 0x61626380
  ∧ bigEndian 4 0x66c7f0f4 = [0x66, 0xc7, 0xf0, 0xf4]
  ∧ lengthField (8 * 3) = [0x00, 0x00, 0x00, 0x00, 0x00, 0x00, 0x00, 0x18]

/-- 30_encoding.md R94: a length operand is `word` if `word < 2^31`, else `word - 2^32`; it is legal for a byte string
exactly when it is not negative and is the string's length. -/
def Obligations.LengthOperandIsSigned : Prop :=
  ∀ (len : BitVec 32) (data : ByteString),
    signedLength len = (if len.toNat < 2 ^ 31 then (len.toNat : Int) else (len.toNat : Int) - 2 ^ 32)
    ∧ (lengthLegal len data = true ↔ len.toNat < 2 ^ 31 ∧ data.length = len.toNat)

/-- 30_encoding.md R92, R93, R98, R106: the packet of a well-formed command decodes to that command. -/
def Obligations.DecodeOfEncodeIsIdentity : Prop :=
  ∀ i : Instr, i.WellFormed → decode (encode i) = .ok i

/-- 30_encoding.md R93, R99, R106: a packet the decoder accepts is the packet of the command it gives, and that command
is well formed: no bit of a packet is ignored. -/
def Obligations.EncodeOfDecodeIsIdentity : Prop :=
  ∀ (p : ByteString) (i : Instr), decode p = .ok i → i.WellFormed ∧ encode i = p

/-- 30_encoding.md R99, R100: the decoder rejects exactly the packets that (a) to (g) call illegal, (d) for the commands
that name no slot. -/
def Obligations.DecodeRejectsExactlyIllegalPackets : Prop :=
  ∀ p : ByteString, (∃ e, decode p = .error e) ↔ PacketIllegal p

/-- 30_encoding.md R98: a header selects the command of a row of the opcode map exactly when `(Hd AND mask) = match`,
and its slot is `Hd[27:20]`. -/
def Obligations.HeaderSelectsByMatchAndMask : Prop :=
  ∀ row ∈ opcodeMap, ∀ hd : Word,
    ((∃ slot, decodeHeader hd = .ok (row.1, slot)) ↔ hd &&& row.2.2 = row.2.1)
    ∧ ∀ slot, decodeHeader hd = .ok (row.1, slot) → slot.toNat = hd.toNat / 2 ^ 20 % 256

/-- 95_test_vectors.md section 8.1: legal packets, byte for byte, and the commands they are. -/
def Obligations.SpecPacketsDecode : Prop :=
  decode [0x20, 0x10, 0x00, 0x00] = .ok (.init 1)
  ∧ decode [0x2f, 0xf0, 0x00, 0x00] = .ok (.init 255)
  ∧ decode [0x30, 0x10, 0x00, 0x00, 0x00, 0x00, 0x00, 0x03, 0x61, 0x62, 0x63] = .ok (.update 1 3 [0x61, 0x62, 0x63])
  ∧ decode [0x40, 0x10, 0x00, 0x00] = .ok (.finalize 1)
  ∧ decode [0x50, 0x00, 0x00, 0x00, 0x00, 0x00, 0x00, 0x03, 0x61, 0x62, 0x63] = .ok (.hash 3 [0x61, 0x62, 0x63])
  ∧ decode [0x60, 0x00, 0x00, 0x00, 0x00, 0x00, 0x00, 0x03, 0x6b, 0x65, 0x79] = .ok (.hmacInit 0 3 [0x6b, 0x65, 0x79])
  ∧ decode [0x70, 0x00, 0x00, 0x00, 0x00, 0x00, 0x00, 0x03, 0x61, 0x62, 0x63]
      = .ok (.hmacUpdate 0 3 [0x61, 0x62, 0x63])
  ∧ decode [0x80, 0x00, 0x00, 0x00] = .ok (.hmacFinish 0)
  ∧ decode [0x90, 0x00, 0x00, 0x00, 0x00, 0x00, 0x00, 0x03, 0x00, 0x00, 0x00, 0x03, 0x6b, 0x65, 0x79, 0x61, 0x62, 0x63]
      = .ok (.hmac 3 3 [0x6b, 0x65, 0x79] [0x61, 0x62, 0x63])

/-- 30_encoding.md R104, R93, R94: a line of assembler text stands for the packet of its command: with no written length
the length operand is the length of the string and the packet decodes to that command; with a written length other than
the string's the packet is illegal. -/
def Obligations.AssemblerLinesStandForPackets : Prop :=
  let own (d : LengthSpelling) : Prop := d.len = none ∧ Sendable d.string.bytes
  let word (d : LengthSpelling) : BitVec 32 := BitVec.ofNat 32 d.string.bytes.length
  let wrong (d : LengthSpelling) (n : Int) : Prop :=
    d.len = some n ∧ -2 ^ 31 ≤ n ∧ n < 2 ^ 31 ∧ n ≠ d.string.bytes.length
  (∀ V (b : StringSpelling), b.bytes.length = 64 →
    decode (Line.compress V b).packet = .ok (.compress V (blockAt b.bytes 0)))
  ∧ (∀ c, decode (Line.init c).packet = .ok (.init c))
  ∧ (∀ c, decode (Line.finalize c).packet = .ok (.finalize c))
  ∧ (∀ h, decode (Line.hmacFinish h).packet = .ok (.hmacFinish h))
  ∧ (∀ c d, own d → decode (Line.update c d).packet = .ok (.update c (word d) d.string.bytes))
  ∧ (∀ d, own d → decode (Line.hash d).packet = .ok (.hash (word d) d.string.bytes))
  ∧ (∀ h k, own k → decode (Line.hmacInit h k).packet = .ok (.hmacInit h (word k) k.string.bytes))
  ∧ (∀ h d, own d → decode (Line.hmacUpdate h d).packet = .ok (.hmacUpdate h (word d) d.string.bytes))
  ∧ (∀ k d, own k → own d →
      decode (Line.hmac k d).packet = .ok (.hmac (word k) (word d) k.string.bytes d.string.bytes))
  ∧ (∀ c d n, wrong d n → ∃ e, decode (Line.update c d).packet = .error e)
  ∧ (∀ d n, wrong d n → ∃ e, decode (Line.hash d).packet = .error e)
  ∧ (∀ h k n, wrong k n → ∃ e, decode (Line.hmacInit h k).packet = .error e)
  ∧ (∀ h d n, wrong d n → ∃ e, decode (Line.hmacUpdate h d).packet = .error e)

/-! ### The step -/

/-- 30_encoding.md R91, R106; 00_scope.md R9: when the packet the host sends next decodes to a command, the step is
that command run on the state in which the packet has been received. -/
def Obligations.StepRunsDecodedCommand : Prop :=
  ∀ (s : State) (p : ByteString) (rest : List HostEvent) (i : Instr),
    s.input = .packet p :: rest → decode p = .ok i → step s = exec i { s with input := rest }

/-- 30_encoding.md R99; 60_exceptions.md R253: a packet the decoder rejects is answered `INVALID_INPUT`, and nothing
else changes but that the packet has been received. -/
def Obligations.StepRejectsIllegalPacket : Prop :=
  ∀ (s : State) (p : ByteString) (rest : List HostEvent),
    s.consistent = true → s.input = .packet p :: rest → PacketIllegal p →
      step s = .next { s with input := rest, responses := s.responses ++ [.invalidInput] }

/-- 70_reset_and_hazards.md R280, R281: a reset leaves every `st` at `ST_UNINIT`, over the same numbers of slots, gives
no response, and is accepted in every state, those of the fatal assertion too. -/
def Obligations.StepTakesReset : Prop :=
  ∀ (s : State) (rest : List HostEvent), s.input = .reset :: rest →
    ∃ t, step s = .next t ∧ t.input = rest ∧ t.responses = s.responses
      ∧ t.ctx.length = s.ctx.length ∧ t.hctx.length = s.hctx.length
      ∧ (∀ X ∈ t.ctx, X.st = Status.uninit)
      ∧ (∀ Y ∈ t.hctx, Y.inner.st = Status.uninit ∧ Y.outer.st = Status.uninit)
      ∧ t.consistent = true

/-- The model's choice (assumption log 1; 70_reset_and_hazards.md R291, R292 give no state that means finished): with a
host that sends nothing the CORE waits and nothing changes. -/
def Obligations.IdleStepChangesNothing : Prop :=
  ∀ s : State, s.input = [] → step s = .next s

/-- 70_reset_and_hazards.md R281; 10_state.md R43: after reset every status is `ST_UNINIT`. The two plain slots and the
one HMAC slot are the defaults of 00_scope.md R5 (assumption log 5); that nothing has been received yet is the model's
own part (log 1). -/
def Obligations.ResetState : Prop :=
  State.reset.ctx.map Context.st = [Status.uninit, Status.uninit]
  ∧ State.reset.hctx.map (fun Y => (Y.inner.st, Y.outer.st)) = [(Status.uninit, Status.uninit)]
  ∧ State.reset.input = [] ∧ State.reset.responses = []

/-! ### The streaming procedures -/

/-- 41_streaming_hasher.md R180; 10_state.md R25, R26: `Append` stores the byte at index `fill` and no other byte of
`buf`; the 64th byte compresses the buffer and empties it, any other byte only advances `fill`; `total` and `st` stay. -/
def Obligations.AppendStoresOneByte : Prop :=
  ∀ (X : Context) (b : Byte),
    byteAt (X.append b).buf.toList X.fill.toNat = b
    ∧ (∀ a, a ≠ X.fill.toNat → byteAt (X.append b).buf.toList a = byteAt X.buf.toList a)
    ∧ (X.append b).total = X.total ∧ (X.append b).st = X.st
    ∧ (X.fill.toNat = 63 → (X.append b).fill.toNat = 0 ∧ (X.append b).V = compress X.V (X.append b).buf)
    ∧ (X.fill.toNat ≠ 63 → (X.append b).fill.toNat = X.fill.toNat + 1 ∧ (X.append b).V = X.V)

/-- 41_streaming_hasher.md R185; 70_reset_and_hazards.md R291: at most 63 zeros bring `fill` to 56, whatever it was, and
after the length field it is 0. -/
def Obligations.FinalizePaddingEndsOnBlockBoundary : Prop :=
  ∀ X : Context, (Context.zeroPad 63 X).fill.toNat = 56 ∧ X.pad.fill.toNat = 0 ∧ X.pad.total = X.total

/-! ### The commands complete -/

/-- 40_compressor.md R146; 30_encoding.md R97: COMPRESS answers `OK` with the packed result and changes no slot and no
scratch context. -/
def Obligations.CompressCompletes : Prop :=
  ∀ (V : HashState) (block : Block) (s : State), s.consistent = true →
    ∃ t, exec (.compress V block) s = .next t
      ∧ Answered s t (digestBytes (compress V block))
      ∧ NoSlotChanged s t ∧ t.scr = s.scr ∧ t.hscr = s.hscr

/-- 41_streaming_hasher.md R181: INIT succeeds in every status of an existing slot, writes `V`, `fill`, `total` and `st`
as the rule says, and answers `OK` with no output bytes; that the datapath
and the scratch contexts stay is assumption log 10 and 22. -/
def Obligations.InitCompletes : Prop :=
  ∀ (c : BitVec 8) (s : State), s.consistent = true → c.toNat < s.ctx.length →
    ∃ t X, exec (.init c) s = .next t ∧ t.ctx[c.toNat]? = some X
      ∧ X.V = iv ∧ X.fill.toNat = 0 ∧ X.total.toNat = 0 ∧ X.st = Status.active
      ∧ Answered s t [] ∧ OnlyCtxChanged s t c.toNat
      ∧ t.scr = s.scr ∧ t.hscr = s.hscr ∧ t.datapath = s.datapath

/-- 41_streaming_hasher.md R182, R183: an admitted UPDATE absorbs its data in block form and answers `OK`; an empty one
changes nothing in its slot (assumption log 20); one that completes no block leaves the datapath (log 10); the scratch
contexts stay (log 22). -/
def Obligations.UpdateCompletes : Prop :=
  ∀ (c : BitVec 8) (len : BitVec 32) (data : ByteString) (s : State) (X : Context),
    s.consistent = true → s.ctx[c.toNat]? = some X → X.st = Status.active →
    len.toNat < 2 ^ 31 → data.length = len.toNat → X.total.toNat + data.length < 2 ^ 61 →
    ∃ t X', exec (.update c len data) s = .next t ∧ t.ctx[c.toNat]? = some X'
      ∧ AbsorbedTo X data X' ∧ (data = [] → X' = X)
      ∧ Answered s t [] ∧ OnlyCtxChanged s t c.toNat
      ∧ t.scr = s.scr ∧ t.hscr = s.hscr ∧ (X.fill.toNat + data.length < 64 → t.datapath = s.datapath)

/-- 41_streaming_hasher.md R185, R186: an admitted FINALIZE answers `OK` with the digest of the rule's padding and leaves
the slot in `ST_FINAL`; that the scratch contexts stay is assumption log 22. -/
def Obligations.FinalizeCompletes : Prop :=
  ∀ (c : BitVec 8) (s : State) (X : Context),
    s.consistent = true → s.ctx[c.toNat]? = some X → X.st = Status.active →
    ∃ t X', exec (.finalize c) s = .next t ∧ t.ctx[c.toNat]? = some X' ∧ X'.st = Status.final
      ∧ Answered s t (finalDigest X) ∧ OnlyCtxChanged s t c.toNat
      ∧ t.scr = s.scr ∧ t.hscr = s.hscr

/-- 41_streaming_hasher.md R187, R189: HASH answers `OK` with the Merkle–Damgård digest of its data, whatever the scratch
Context held, and changes no slot; that `HSCR` stays is assumption log 22. -/
def Obligations.HashCompletes : Prop :=
  ∀ (len : BitVec 32) (data : ByteString) (s : State),
    s.consistent = true → len.toNat < 2 ^ 31 → data.length = len.toNat →
    ∃ t, exec (.hash len data) s = .next t
      ∧ Answered s t (messageDigest data) ∧ NoSlotChanged s t ∧ t.hscr = s.hscr

/-- 42_hmac.md R220, R221, R222: HMAC_INIT succeeds in every status of an existing slot: the pads of the key, the inner
Context with `ipad` absorbed, the outer Context untouched; that `HSCR` stays, and `SCR` with a key of at most 64 bytes,
is assumption log 22. -/
def Obligations.HmacInitCompletes : Prop :=
  ∀ (h : BitVec 8) (len : BitVec 32) (key : ByteString) (s : State) (Y : HmacContext),
    s.consistent = true → s.hctx[h.toNat]? = some Y → len.toNat < 2 ^ 31 → key.length = len.toNat →
    ∃ t Y', exec (.hmacInit h len key) s = .next t ∧ t.hctx[h.toNat]? = some Y'
      ∧ Y'.ipad.toList = keyPad key 0x36 ∧ Y'.opad.toList = keyPad key 0x5c
      ∧ Y'.inner.V = compress iv Y'.ipad ∧ Y'.inner.fill.toNat = 0 ∧ Y'.inner.total.toNat = 64
      ∧ Y'.inner.st = Status.active ∧ Y'.outer = Y.outer
      ∧ Answered s t [] ∧ OnlyHctxChanged s t h.toNat
      ∧ t.hscr = s.hscr ∧ (key.length ≤ 64 → t.scr = s.scr)

/-- 42_hmac.md R223: an admitted HMAC_UPDATE absorbs its data into the inner Context; the outer Context and the pads
are unchanged; an empty one changes nothing in its slot (assumption log 20); one that completes no block leaves the
datapath (log 10); the scratch contexts stay (log 22). -/
def Obligations.HmacUpdateCompletes : Prop :=
  ∀ (h : BitVec 8) (len : BitVec 32) (data : ByteString) (s : State) (Y : HmacContext),
    s.consistent = true → s.hctx[h.toNat]? = some Y → Y.inner.st = Status.active →
    len.toNat < 2 ^ 31 → data.length = len.toNat → Y.inner.total.toNat + data.length < 2 ^ 61 →
    ∃ t Y', exec (.hmacUpdate h len data) s = .next t ∧ t.hctx[h.toNat]? = some Y'
      ∧ AbsorbedTo Y.inner data Y'.inner ∧ (data = [] → Y' = Y)
      ∧ Y'.outer = Y.outer ∧ Y'.ipad = Y.ipad ∧ Y'.opad = Y.opad
      ∧ Answered s t [] ∧ OnlyHctxChanged s t h.toNat
      ∧ t.scr = s.scr ∧ t.hscr = s.hscr ∧ (Y.inner.fill.toNat + data.length < 64 → t.datapath = s.datapath)

/-- 42_hmac.md R224: an admitted HMAC_FINISH answers `OK` with the digest of `opad ‖ innerDigest`; both Contexts become
`ST_FINAL` and the pads are unchanged (assumption log 8); the scratch contexts stay (log 22). -/
def Obligations.HmacFinishCompletes : Prop :=
  ∀ (h : BitVec 8) (s : State) (Y : HmacContext),
    s.consistent = true → s.hctx[h.toNat]? = some Y → Y.inner.st = Status.active →
    ∃ t Y', exec (.hmacFinish h) s = .next t ∧ t.hctx[h.toNat]? = some Y'
      ∧ Y'.inner.st = Status.final ∧ Y'.outer.st = Status.final ∧ Y'.ipad = Y.ipad ∧ Y'.opad = Y.opad
      ∧ Answered s t (messageDigest (Y.opad.toList ++ finalDigest Y.inner)) ∧ OnlyHctxChanged s t h.toNat
      ∧ t.scr = s.scr ∧ t.hscr = s.hscr

/-- 42_hmac.md R225: HMAC answers `OK` with `H( opad ‖ H( ipad ‖ data ) )`, whatever the scratch contexts held, and
changes no slot; that `SCR` stays with a key of at most 64 bytes is assumption log 22. -/
def Obligations.HmacCompletes : Prop :=
  ∀ (klen mlen : BitVec 32) (key data : ByteString) (s : State),
    s.consistent = true → klen.toNat < 2 ^ 31 → key.length = klen.toNat →
    mlen.toNat < 2 ^ 31 → data.length = mlen.toNat →
    ∃ t, exec (.hmac klen mlen key data) s = .next t
      ∧ Answered s t (messageTag key data) ∧ NoSlotChanged s t ∧ (key.length ≤ 64 → t.scr = s.scr)

/-! ### Runs of commands on one slot -/

/-- 41_streaming_hasher.md R184; 20_memory.md R67: any way of cutting a message into UPDATE commands leaves what is
defined of the slot as one UPDATE of the whole message does. -/
def Obligations.ChunkedUpdatesEqualOne : Prop :=
  ∀ (c : BitVec 8) (pieces : List ByteString) (s : State) (X : Context),
    s.consistent = true → s.ctx[c.toNat]? = some X → X.st = Status.active →
    Sendable pieces.flatten → X.total.toNat + pieces.flatten.length < 2 ^ 61 →
    ∃ t u, execAll (updatesOf c pieces) s = .next t ∧ execAll (updatesOf c [pieces.flatten]) s = .next u
      ∧ t.ctx[c.toNat]?.map Context.view = u.ctx[c.toNat]?.map Context.view

/-- 41_streaming_hasher.md R187: INIT, any admitted chunking of UPDATEs, FINALIZE on a slot in any status answer with the
Merkle–Damgård digest of the message. -/
def Obligations.StreamedDigest : Prop :=
  ∀ (c : BitVec 8) (pieces : List ByteString) (s : State),
    s.consistent = true → c.toNat < s.ctx.length →
    (∀ M ∈ pieces, Sendable M) → pieces.flatten.length < 2 ^ 61 →
    ∃ t, execAll (.init c :: updatesOf c pieces ++ [.finalize c]) s = .next t
      ∧ t.responses = s.responses ++ .ok [] :: pieces.map (fun _ => .ok []) ++ [.ok (messageDigest pieces.flatten)]

/-- 42_hmac.md R224, R225: HMAC_INIT, any admitted chunking of HMAC_UPDATEs, HMAC_FINISH on a slot in any status answer
with the tag in closed form. -/
def Obligations.StreamedTag : Prop :=
  ∀ (h : BitVec 8) (key : ByteString) (pieces : List ByteString) (s : State),
    s.consistent = true → h.toNat < s.hctx.length → Sendable key →
    (∀ M ∈ pieces, Sendable M) → 64 + pieces.flatten.length < 2 ^ 61 →
    ∃ t, execAll (.hmacInit h (BitVec.ofNat 32 key.length) key :: hmacUpdatesOf h pieces ++ [.hmacFinish h]) s = .next t
      ∧ t.responses = s.responses ++ .ok [] :: pieces.map (fun _ => .ok []) ++ [.ok (messageTag key pieces.flatten)]

/-- 30_encoding.md R105: HASH gives the output bytes of INIT, UPDATE, FINALIZE on a real slot, and HMAC those of HMAC_INIT,
HMAC_UPDATE, HMAC_FINISH. -/
def Obligations.CompositesEqualTheirSequences : Prop :=
  ∀ (c h : BitVec 8) (key data : ByteString) (s : State),
    s.consistent = true → c.toNat < s.ctx.length → h.toNat < s.hctx.length → Sendable key → Sendable data →
    let len := BitVec.ofNat 32 data.length
    let klen := BitVec.ofNat 32 key.length
    (∃ t u out, exec (.hash len data) s = .next t ∧ Answered s t out
      ∧ execAll [.init c, .update c len data, .finalize c] s = .next u
      ∧ u.responses = s.responses ++ [.ok [], .ok [], .ok out])
    ∧ (∃ t u out, exec (.hmac klen len key data) s = .next t ∧ Answered s t out
      ∧ execAll [.hmacInit h klen key, .hmacUpdate h len data, .hmacFinish h] s = .next u
      ∧ u.responses = s.responses ++ [.ok [], .ok [], .ok out])

/-- 42_hmac.md R226: a key of more than 64 bytes and the 32 output bytes of HASH on it give HMAC the same tag, and give
HMAC_INIT the same slot. -/
def Obligations.LongKeyEquivalence : Prop :=
  ∀ (klen mlen : BitVec 32) (key data : ByteString) (s u : State) (d : ByteString),
    klen.toNat < 2 ^ 31 → key.length = klen.toNat → mlen.toNat < 2 ^ 31 → data.length = mlen.toNat →
    64 < key.length → exec (.hash klen key) s = .next u → Answered s u d →
    d.length = 32
    ∧ (∃ t t', exec (.hmac klen mlen key data) s = .next t ∧ exec (.hmac 32 mlen d data) s = .next t'
        ∧ t.responses = t'.responses)
    ∧ (∀ h : BitVec 8, h.toNat < s.hctx.length →
        ∃ t t', exec (.hmacInit h klen key) s = .next t ∧ exec (.hmacInit h 32 d) s = .next t' ∧ t.view = t'.view)

/-! ### Errors, and what a command leaves alone -/

/-- 60_exceptions.md R251, R253: a command given to `exec` answers `INVALID_INPUT`, with nothing else changed, exactly
when row 5, 6, 7, 8 or 9 of the table of causes holds. Rows 6 and 7 here speak of commands that no packet decodes to
(`EncodeOfDecodeIsIdentity`): that `exec` answers them as it does their packets is the model's choice (DEDUCED,
assumption log 14); the packets themselves are `StepRejectsIllegalPacket`'s. -/
def Obligations.InvalidInputExactlyWhenCaused : Prop :=
  ∀ (i : Instr) (s : State), s.consistent = true →
    (exec i s = .next s.rejected ↔ InvalidCause s i)

/-- 60_exceptions.md R265, R256; 41_streaming_hasher.md R182; 42_hmac.md R223: a command given to `exec` is refused exactly
when it would bring `total` to 2^61 bytes or more and no cause of InvalidInput holds. The model's choices in it: an empty
UPDATE on a total already at 2^61 is refused too (DEDUCED, assumption log 9); a command that no packet decodes to is not
refused but answered (DEDUCED, log 14). -/
def Obligations.RefusedExactlyBeyondScope : Prop :=
  ∀ (i : Instr) (s : State), s.consistent = true →
    (exec i s = .refused .lengthOutOfScope ↔ OutOfScope s i ∧ ¬ InvalidCause s i)

/-- 60_exceptions.md R255: every command faults exactly when a slot holds a status of 3 or is active with
`fill != total mod 64`; that every slot is looked at is assumption log 6. -/
def Obligations.FaultExactlyOnViolatedAssertion : Prop :=
  ∀ (i : Instr) (s : State),
    exec i s = .fault .fatalAssert ↔
      ∃ X, (X ∈ s.ctx ∨ ∃ Y ∈ s.hctx, X = Y.inner ∨ X = Y.outer)
        ∧ (X.st = 3 ∨ (X.st = Status.active ∧ X.fill.toNat ≠ X.total.toNat % 64))

/-- 60_exceptions.md R250; 30_encoding.md R96: a command with no cause of InvalidInput and within scope answers `OK`, with
32 output bytes for COMPRESS, FINALIZE, HASH, HMAC_FINISH and HMAC and none for the others. -/
def Obligations.AdmittedCommandAnswersOk : Prop :=
  ∀ (i : Instr) (s : State), s.consistent = true → ¬ InvalidCause s i → ¬ OutOfScope s i →
    ∃ t out, exec i s = .next t ∧ Answered s t out ∧ out.length = if givesDigest i then 32 else 0

/-- 10_state.md R31, R44: a command changes no slot but the one it names, nor the numbers of slots, nor what the host has
still to send. -/
def Obligations.OtherSlotsUntouched : Prop :=
  ∀ (i : Instr) (s t : State), exec i s = .next t →
    t.ctx.length = s.ctx.length ∧ t.hctx.length = s.hctx.length ∧ t.input = s.input
    ∧ (∀ c, plainSlotOf i ≠ some c → t.ctx[c]? = s.ctx[c]?)
    ∧ (∀ h, hmacSlotOf i ≠ some h → t.hctx[h]? = s.hctx[h]?)

/-- 10_state.md R28, R33: the only changes of status a command makes: INIT to `ST_ACTIVE`, FINALIZE from `ST_ACTIVE` to
`ST_FINAL`; on an HMAC slot HMAC_INIT sets the inner status to `ST_ACTIVE` and HMAC_FINISH, from `ST_ACTIVE`, sets both to
`ST_FINAL`. -/
def Obligations.StatusTransitions : Prop :=
  ∀ (i : Instr) (s t : State), exec i s = .next t →
    (∀ (c : Nat) (X X' : Context), s.ctx[c]? = some X → t.ctx[c]? = some X' →
      X'.st = X.st
      ∨ (X'.st = Status.active ∧ ∃ k, i = .init k ∧ k.toNat = c)
      ∨ (X.st = Status.active ∧ X'.st = Status.final ∧ ∃ k, i = .finalize k ∧ k.toNat = c))
    ∧ (∀ (h : Nat) (Y Y' : HmacContext), s.hctx[h]? = some Y → t.hctx[h]? = some Y' →
      (Y'.inner.st = Y.inner.st ∧ Y'.outer.st = Y.outer.st)
      ∨ (Y'.inner.st = Status.active ∧ Y'.outer.st = Y.outer.st ∧ ∃ k len key, i = .hmacInit k len key ∧ k.toNat = h)
      ∨ (Y.inner.st = Status.active ∧ Y'.inner.st = Status.final ∧ Y'.outer.st = Status.final
          ∧ ∃ k, i = .hmacFinish k ∧ k.toNat = h))

/-- 30_encoding.md R91, R96: exactly one response follows each packet that has a next state; it is 1 or 33 bytes long, it
starts with the status byte 0x00 or 0x01, and the 33-byte ones start with 0x00. -/
def Obligations.OneResponsePerPacket : Prop :=
  ∀ (s t : State) (p : ByteString) (rest : List HostEvent),
    s.input = .packet p :: rest → step s = .next t →
    t.input = rest ∧ ∃ r, t.responses = s.responses ++ [r]
      ∧ ((r.packet.length = 33 ∧ byteAt r.packet 0 = 0x00) ∨ r.packet = [0x00] ∨ r.packet = [0x01])

/-- 10_state.md R41; 60_exceptions.md R259: no command reads an earlier response: a rejected command may be followed by
the corrected one with the same effect as if it had never been sent. -/
def Obligations.EarlierResponsesAreNeverRead : Prop :=
  ∀ (i : Instr) (s t : State) (R : List Response), exec i s = .next t →
    exec i (s.withResponses R) = .next (t.withResponses (R ++ t.responses.drop s.responses.length))

/-- 20_memory.md R69; 41_streaming_hasher.md R181: what is defined of the machine after two INITs of a slot in a row is
what is defined after one, but for the second response. -/
def Obligations.InitTwiceEqualsOnce : Prop :=
  ∀ (c : BitVec 8) (s : State), s.consistent = true → c.toNat < s.ctx.length →
    ∃ t u, exec (.init c) s = .next t ∧ exec (.init c) t = .next u
      ∧ u.view = { t.view with responses := t.responses ++ [.ok []] }

/-! ### Whole-machine statements -/

/-- 00_scope.md R5; 10_state.md R26, R33: the invariant holds of the machine after reset. -/
def Obligations.ResetKeepsInvariant : Prop := State.reset.Inv

/-- 10_state.md R26, R28, R33; 30_encoding.md R96; 60_exceptions.md R255, R265: every step, from every state with the
invariant, keeps it. -/
def Obligations.StepKeepsInvariant : Prop :=
  ∀ s t : State, s.Inv → step s = .next t → t.Inv

/-- 60_exceptions.md R255: from every state with the invariant, whatever the host sends, no step ever faults. -/
def Obligations.InvariantStatesNeverFault : Prop := ∀ s : State, s.Inv → s.NeverFaults

/-- 60_exceptions.md R250, R255; 10_state.md R26: from reset, over any legal numbers of slots, no sequence of packets and
resets reaches the fatal assertion. -/
def Obligations.RunsFromResetNeverFault : Prop :=
  ∀ (nctx nhctx n : Nat) (events : List HostEvent),
    1 ≤ nctx → nctx ≤ 256 → 1 ≤ nhctx → nhctx ≤ 256 →
    (State.afterReset nctx nhctx n events []).NeverFaults

/-- 10_state.md R39; 70_reset_and_hazards.md R281, R292: the hidden state influences no response: two states that agree
on what is defined step to outcomes that agree on what is defined, whatever the stale bytes, the scratch contexts, the
datapath and the inactive slots hold. -/
def Obligations.HiddenStateIsUnobservable : Prop :=
  ∀ s t : State, s.view = t.view → SameOutcome (step s) (step t)

/-- 41_streaming_hasher.md R190; 10_state.md R44: in any interleaving, the commands that name plain slot `c` get the
responses, and leave of the slot, what they would alone. -/
def Obligations.InterleavedPlainSlots : Prop :=
  ∀ (c : Nat) (is : List Instr) (s t : State),
    execAll is s = .next t →
    let own := fun i => decide (plainSlotOf i = some c)
    ∃ u, execAll (is.filter own) s = .next u
      ∧ u.ctx[c]?.map Context.view = t.ctx[c]?.map Context.view
      ∧ responsesTo own is s.responses t.responses = u.responses.drop s.responses.length

/-- 42_hmac.md R229; 10_state.md R44: the same of the commands that name HMAC slot `h`. -/
def Obligations.InterleavedHmacSlots : Prop :=
  ∀ (h : Nat) (is : List Instr) (s t : State),
    execAll is s = .next t →
    let own := fun i => decide (hmacSlotOf i = some h)
    ∃ u, execAll (is.filter own) s = .next u
      ∧ u.hctx[h]?.map HmacContext.view = t.hctx[h]?.map HmacContext.view
      ∧ responsesTo own is s.responses t.responses = u.responses.drop s.responses.length

/-- 70_reset_and_hazards.md R289, R290; 42_hmac.md R228: the number of block compressions of each command. -/
def Obligations.CompressionCounts : Prop :=
  ∀ s : State,
    (∀ V block, commandCost (.compress V block) s = 1)
    ∧ (∀ c, commandCost (.init c) s = 0)
    ∧ (∀ c len data X, s.ctx[c.toNat]? = some X →
        commandCost (.update c len data) s = (X.fill.toNat + data.length) / 64)
    ∧ (∀ c X, s.ctx[c.toNat]? = some X → commandCost (.finalize c) s = if X.fill.toNat ≤ 55 then 1 else 2)
    ∧ (∀ len data, commandCost (.hash len data) s = blockCount data.length)
    ∧ (∀ h len key Y, s.hctx[h.toNat]? = some Y →
        commandCost (.hmacInit h len key) s = 1 + if 64 < key.length then blockCount key.length else 0)
    ∧ (∀ h len data Y, s.hctx[h.toNat]? = some Y →
        commandCost (.hmacUpdate h len data) s = (Y.inner.fill.toNat + data.length) / 64)
    ∧ (∀ h Y, s.hctx[h.toNat]? = some Y →
        commandCost (.hmacFinish h) s = (if Y.inner.fill.toNat ≤ 55 then 1 else 2) + 2)
    ∧ (∀ klen mlen key data, commandCost (.hmac klen mlen key data) s
        = blockCount data.length + 3 + if 64 < key.length then blockCount key.length else 0)

/-- 41_streaming_hasher.md R189 (the source's known answers): `hash("abc")`, as the response to its packet straight after
reset. -/
def Obligations.KnownAnswerAbc : Prop :=
  ∃ t, step { State.reset with
      input := [.packet [0x50, 0x00, 0x00, 0x00, 0x00, 0x00, 0x00, 0x03, 0x61, 0x62, 0x63]] } = .next t
    ∧ t.responses.map Response.packet = [[0x00,
        0x66, 0xc7, 0xf0, 0xf4, 0x62, 0xee, 0xed, 0xd9, 0xd1, 0xf2, 0xd4, 0x6b, 0xdc, 0x10, 0xe4, 0xe2,
        0x41, 0x67, 0xc4, 0x87, 0x5c, 0xf2, 0xf7, 0xa2, 0x29, 0x7d, 0xa0, 0x2b, 0x8f, 0x4b, 0xa8, 0xe0]]
end

