-- ==== Sys2Proof/Laws/State.lean ====
section
/-! SUPPORT. The small lemmas of the record updates: what each field holds after each update. -/

namespace Sys2Proof.Machine

theorem stored_eq {α : Type} {n : Nat} (v : Vector α n) (i : Nat) (a : α) : stored v i a = v.setIfInBounds i a := by
  apply Vector.ext
  intro k hk
  unfold stored
  split
  · simp [Vector.getElem_set, Vector.getElem_setIfInBounds]
  · rename_i h
    rw [Vector.getElem_setIfInBounds, if_neg (by omega)]

section putCtx

variable (s : State) (c : Nat) (X : Context)

@[simp] theorem putCtx_ctx : (s.putCtx c X).ctx = s.ctx.set c X := rfl
@[simp] theorem putCtx_hctx : (s.putCtx c X).hctx = s.hctx := rfl
@[simp] theorem putCtx_scr : (s.putCtx c X).scr = s.scr := rfl
@[simp] theorem putCtx_hscr : (s.putCtx c X).hscr = s.hscr := rfl
@[simp] theorem putCtx_datapath : (s.putCtx c X).datapath = s.datapath := rfl
@[simp] theorem putCtx_input : (s.putCtx c X).input = s.input := rfl
@[simp] theorem putCtx_responses : (s.putCtx c X).responses = s.responses := rfl
@[simp] theorem putCtx_serial : (s.putCtx c X).serial = s.serial := rfl

end putCtx

section putHctx

variable (s : State) (h : Nat) (Y : HmacContext)

@[simp] theorem putHctx_ctx : (s.putHctx h Y).ctx = s.ctx := rfl
@[simp] theorem putHctx_hctx : (s.putHctx h Y).hctx = s.hctx.set h Y := rfl
@[simp] theorem putHctx_scr : (s.putHctx h Y).scr = s.scr := rfl
@[simp] theorem putHctx_hscr : (s.putHctx h Y).hscr = s.hscr := rfl
@[simp] theorem putHctx_datapath : (s.putHctx h Y).datapath = s.datapath := rfl
@[simp] theorem putHctx_input : (s.putHctx h Y).input = s.input := rfl
@[simp] theorem putHctx_responses : (s.putHctx h Y).responses = s.responses := rfl
@[simp] theorem putHctx_serial : (s.putHctx h Y).serial = s.serial := rfl

end putHctx

section release

variable (s : State) (u : Bool)

@[simp] theorem releaseDatapath_ctx : (s.releaseDatapath u).ctx = s.ctx := by cases u <;> rfl
@[simp] theorem releaseDatapath_hctx : (s.releaseDatapath u).hctx = s.hctx := by cases u <;> rfl
@[simp] theorem releaseDatapath_scr : (s.releaseDatapath u).scr = s.scr := by cases u <;> rfl
@[simp] theorem releaseDatapath_hscr : (s.releaseDatapath u).hscr = s.hscr := by cases u <;> rfl
@[simp] theorem releaseDatapath_true :
    (s.releaseDatapath true).datapath = Datapath.unspecified s.serial := rfl
@[simp] theorem releaseDatapath_false : s.releaseDatapath false = s := rfl
@[simp] theorem releaseDatapath_input : (s.releaseDatapath u).input = s.input := by cases u <;> rfl
@[simp] theorem releaseDatapath_responses : (s.releaseDatapath u).responses = s.responses := by cases u <;> rfl
@[simp] theorem releaseDatapath_serial : (s.releaseDatapath u).serial = s.serial := by cases u <;> rfl

@[simp] theorem releaseScr_ctx : (s.releaseScr u).ctx = s.ctx := by cases u <;> rfl
@[simp] theorem releaseScr_hctx : (s.releaseScr u).hctx = s.hctx := by cases u <;> rfl
@[simp] theorem releaseScr_true : (s.releaseScr true).scr = scrUnspecified s.serial := rfl
@[simp] theorem releaseScr_false : s.releaseScr false = s := rfl
@[simp] theorem releaseScr_hscr : (s.releaseScr u).hscr = s.hscr := by cases u <;> rfl
@[simp] theorem releaseScr_datapath : (s.releaseScr u).datapath = s.datapath := by cases u <;> rfl
@[simp] theorem releaseScr_input : (s.releaseScr u).input = s.input := by cases u <;> rfl
@[simp] theorem releaseScr_responses : (s.releaseScr u).responses = s.responses := by cases u <;> rfl
@[simp] theorem releaseScr_serial : (s.releaseScr u).serial = s.serial := by cases u <;> rfl

@[simp] theorem releaseHscr_ctx : s.releaseHscr.ctx = s.ctx := rfl
@[simp] theorem releaseHscr_hctx : s.releaseHscr.hctx = s.hctx := rfl
@[simp] theorem releaseHscr_scr : s.releaseHscr.scr = s.scr := rfl
@[simp] theorem releaseHscr_hscr : s.releaseHscr.hscr = hscrUnspecified s.serial := rfl
@[simp] theorem releaseHscr_datapath : s.releaseHscr.datapath = s.datapath := rfl
@[simp] theorem releaseHscr_input : s.releaseHscr.input = s.input := rfl
@[simp] theorem releaseHscr_responses : s.releaseHscr.responses = s.responses := rfl
@[simp] theorem releaseHscr_serial : s.releaseHscr.serial = s.serial := rfl

end release

section context

variable (X : Context) (n : Nat) (o : Owner) (st : Status) (b : Byte)

@[simp] theorem unspecified_st : (Context.unspecified n o st).st = st := rfl

@[simp] theorem settle_V : (X.settle n o).V = X.V := rfl
@[simp] theorem settle_fill : (X.settle n o).fill = X.fill := rfl
@[simp] theorem settle_total : (X.settle n o).total = X.total := rfl
@[simp] theorem settle_st : (X.settle n o).st = X.st := rfl

@[simp] theorem start_V : X.start.V = iv := rfl
@[simp] theorem start_buf : X.start.buf = X.buf := rfl
@[simp] theorem start_fill : X.start.fill = 0 := rfl
@[simp] theorem start_total : X.start.total = 0 := rfl
@[simp] theorem start_st : X.start.st = Status.active := rfl

@[simp] theorem append_total : (X.append b).total = X.total := by
  unfold Context.append; split <;> rfl

@[simp] theorem append_st : (X.append b).st = X.st := by
  unfold Context.append; split <;> rfl

@[simp] theorem append_buf : (X.append b).buf = stored X.buf X.fill.toNat b := by
  unfold Context.append; split <;> rfl

@[simp] theorem absorbByte_V : (X.absorbByte b).V = (X.append b).V := rfl
@[simp] theorem absorbByte_buf : (X.absorbByte b).buf = (X.append b).buf := rfl
@[simp] theorem absorbByte_fill : (X.absorbByte b).fill = (X.append b).fill := rfl
@[simp] theorem absorbByte_total : (X.absorbByte b).total = X.total + 1 := by
  simp [Context.absorbByte]
@[simp] theorem absorbByte_st : (X.absorbByte b).st = X.st := append_st X b

end context

section hmac

variable (Y : HmacContext) (scr : Context) (key data : ByteString)

@[simp] theorem hmacStart_outer : (Y.start scr key).outer = Y.outer := rfl
@[simp] theorem hmacStart_ipad : (Y.start scr key).ipad = padOf (keyBlock scr key) ipadByte := rfl
@[simp] theorem hmacStart_opad : (Y.start scr key).opad = padOf (keyBlock scr key) opadByte := rfl
@[simp] theorem hmacStart_inner :
    (Y.start scr key).inner = Y.inner.start.absorb (padOf (keyBlock scr key) ipadByte).toList := rfl

@[simp] theorem hmacAbsorb_inner : (Y.absorb data).inner = Y.inner.absorb data := rfl
@[simp] theorem hmacAbsorb_outer : (Y.absorb data).outer = Y.outer := rfl
@[simp] theorem hmacAbsorb_ipad : (Y.absorb data).ipad = Y.ipad := rfl
@[simp] theorem hmacAbsorb_opad : (Y.absorb data).opad = Y.opad := rfl

end hmac

section datapath

variable (d : Datapath) (V : HashState) (block : Block) (j : Nat)

@[simp] theorem parse_W1 : (d.parse block).W1 = d.W1 := rfl
@[simp] theorem expandAt_W : (d.expandAt j).W = stored d.W j (expandedWord d.W j) := rfl
@[simp] theorem expandAt_W1 : (d.expandAt j).W1 = d.W1 := rfl
@[simp] theorem derive_W : d.derive.W = d.W := rfl
@[simp] theorem seed_W : (d.seed V).W = d.W := rfl
@[simp] theorem seed_W1 : (d.seed V).W1 = d.W1 := rfl
@[simp] theorem seed_j : (d.seed V).j = 0 := rfl
@[simp] theorem round_W : d.round.W = d.W := rfl
@[simp] theorem round_W1 : d.round.W1 = d.W1 := rfl
@[simp] theorem round_j : d.round.j = d.j + 1 := rfl

end datapath

section reset

variable (s : State) (nctx nhctx n : Nat) (input : List HostEvent) (responses : List Response)

@[simp] theorem afterReset_ctx : (State.afterReset nctx nhctx n input responses).ctx
    = (List.range nctx).map fun c => Context.unspecified n (.ctx c) Status.uninit := rfl
@[simp] theorem afterReset_hctx : (State.afterReset nctx nhctx n input responses).hctx
    = (List.range nhctx).map fun h => HmacContext.unspecified n h Status.uninit := rfl
@[simp] theorem afterReset_input : (State.afterReset nctx nhctx n input responses).input = input := rfl
@[simp] theorem afterReset_responses : (State.afterReset nctx nhctx n input responses).responses = responses := rfl
@[simp] theorem takeReset_input : s.takeReset.input = s.input := rfl
@[simp] theorem takeReset_responses : s.takeReset.responses = s.responses := rfl

end reset

end Sys2Proof.Machine
end

