-- ==== Sys2Proof/Laws/Hasher.lean ====
section
/-! SUPPORT. The streaming procedures in block form: what appending a byte string leaves in a Context,
    FINALIZE's padding
as one append, and the digest as the closed form. -/

namespace Sys2Proof.Machine


theorem content_length (X : Context) : X.content.length = X.fill.toNat := by
  have := X.fill.isLt
  simp [Context.content]; omega

theorem byteAt_append_left {a b : ByteString} {i : Nat} (h : i < a.length) : byteAt (a ++ b) i = byteAt a i := by
  simp [byteAt, List.getElem?_append_left h]

theorem byteAt_drop (S : ByteString) (n i : Nat) : byteAt (S.drop n) i = byteAt S (n + i) := by
  simp [byteAt, List.getD_eq_getElem?_getD]

theorem blockAt_succ (S : ByteString) (i : Nat) : blockAt S (i + 1) = blockAt (S.drop 64) i := by
  simp only [blockAt, byteAt_drop]
  congr 1; funext k
  rw [show 64 * (i + 1) + k.val = 64 + (64 * i + k.val) by omega]

theorem chain_zero (V : HashState) (S : ByteString) : chain V S 0 = V := rfl

theorem chain_succ (V : HashState) (S : ByteString) (q : Nat) :
    chain V S (q + 1) = chain (compress V (blockAt S 0)) (S.drop 64) q := by
  simp only [chain, List.range_succ_eq_map, List.foldl_cons, List.foldl_map, blockAt_succ]

theorem chain_add (V : HashState) (S : ByteString) (p q : Nat) :
    chain V S (p + q) = chain (chain V S p) (S.drop (64 * p)) q := by
  induction p generalizing V S with
  | zero => simp [chain_zero]
  | succ p ih =>
    rw [show p + 1 + q = (p + q) + 1 by omega, chain_succ, ih, chain_succ, List.drop_drop,
      show 64 + 64 * p = 64 * (p + 1) by omega]

theorem blockAt_zero_append {a b : ByteString} (h : a.length = 64) : blockAt (a ++ b) 0 = blockAt a 0 := by
  simp only [blockAt]
  congr 1; funext k
  exact byteAt_append_left (by have := k.isLt; omega)

theorem toNat_succ_of_ne {f : BitVec 6} (h : f ≠ 63) : (f + 1).toNat = f.toNat + 1 := by
  have := f.isLt
  have : f.toNat ≠ 63 := fun e => h (by apply BitVec.eq_of_toNat_eq; simpa using e)
  simp [BitVec.toNat_add]; omega

theorem append_of_ne {X : Context} (h : X.fill ≠ 63) (b : Byte) :
    (X.append b).V = X.V ∧ (X.append b).fill.toNat = X.fill.toNat + 1 ∧ (X.append b).content = X.content ++ [b] := by
  have hl := X.fill.isLt
  have hs := toNat_succ_of_ne h
  have hlt : X.fill.toNat + 1 < 64 := by rw [← hs]; exact (X.fill + 1).isLt
  refine ⟨by simp only [Context.append, h, if_false], by simp only [Context.append, h, if_false, hs], ?_⟩
  simp only [Context.append, h, if_false, Context.content, hs, stored_eq, Vector.toList_setIfInBounds]
  rw [List.take_add_one, List.take_set_of_le (by omega)]
  simp [List.getElem?_set]
  omega

theorem append_of_eq {X : Context} (h : X.fill = 63) (b : Byte) :
    (X.append b).V = compress X.V (blockAt (X.content ++ [b]) 0) ∧ (X.append b).fill = 0
      ∧ (X.append b).content = [] := by
  refine ⟨?_, by simp only [Context.append, h, if_true], by simp [Context.append, h, Context.content]⟩
  simp only [Context.append, h, if_true]
  congr 1
  apply Vector.ext
  intro i hi
  have h63 : (63 : BitVec 6).toNat = 63 := rfl
  simp only [blockAt, Context.content, h, h63, Vector.getElem_ofFn, byteAt, stored_eq,
    Vector.getElem_setIfInBounds,
    List.getD_eq_getElem?_getD, Nat.mul_zero, Nat.zero_add]
  by_cases hi3 : i = 63
  · subst hi3
    rw [List.getElem?_append_right (by simp)]
    simp
  · have : i < 63 := by omega
    rw [List.getElem?_append_left (by simp; omega)]
    simp [this, Ne.symm hi3]

theorem append_block (X : Context) (b : Byte) (bs : ByteString) :
    let S := X.content ++ b :: bs
    let S' := (X.append b).content ++ bs
    chain (X.append b).V S' (S'.length / 64) = chain X.V S (S.length / 64)
      ∧ S'.drop (64 * (S'.length / 64)) = S.drop (64 * (S.length / 64)) ∧ S'.length % 64 = S.length % 64 := by
  intro S S'
  by_cases h : X.fill = 63
  · obtain ⟨hV, hf, hc⟩ := append_of_eq h b
    have hS' : S' = bs := by simp [S', hc]
    have hlen : (X.content ++ [b]).length = 64 := by simp [content_length, h]
    have hS : S = (X.content ++ [b]) ++ bs := by simp [S]
    have hq : S.length / 64 = bs.length / 64 + 1 := by
      rw [hS, List.length_append, hlen]; omega
    rw [hS', hq, chain_succ, hV]
    have hd : S.drop 64 = bs := by rw [hS, ← hlen]; exact List.drop_left
    refine ⟨?_, ?_, ?_⟩
    · rw [hd]; congr 2; rw [hS, blockAt_zero_append hlen]
    · rw [show 64 * (bs.length / 64 + 1) = 64 + 64 * (bs.length / 64) by ring, ← List.drop_drop, hd]
    · rw [hS, List.length_append, hlen]; omega
  · obtain ⟨hV, hf, hc⟩ := append_of_ne h b
    have : S' = S := by simp [S', S, hc]
    rw [this, hV]; simp

theorem appendAll_block (X : Context) (bs : ByteString) :
    let S := X.content ++ bs
    (X.appendAll bs).V = chain X.V S (S.length / 64)
      ∧ (X.appendAll bs).content = S.drop (64 * (S.length / 64))
      ∧ (X.appendAll bs).fill.toNat = S.length % 64 := by
  induction bs generalizing X with
  | nil =>
    have := X.fill.isLt
    have hl : X.content.length / 64 = 0 := by rw [content_length]; omega
    refine ⟨?_, ?_, ?_⟩
    · simp [Context.appendAll, hl, chain_zero]
    · simp [Context.appendAll, hl]
    · simp [Context.appendAll, content_length]; omega
  | cons b bs ih =>
    obtain ⟨h1, h2, h3⟩ := ih (X.append b)
    obtain ⟨g1, g2, g3⟩ := append_block X b bs
    simp only [Context.appendAll, List.foldl_cons] at h1 h2 h3 ⊢
    exact ⟨h1.trans g1, h2.trans g2, h3.trans g3⟩

theorem appendAll_total (X : Context) (bs : ByteString) : (X.appendAll bs).total = X.total := by
  induction bs generalizing X with
  | nil => rfl
  | cons b bs ih => exact (ih _).trans (append_total X b)

theorem appendAll_st (X : Context) (bs : ByteString) : (X.appendAll bs).st = X.st := by
  induction bs generalizing X with
  | nil => rfl
  | cons b bs ih => exact (ih _).trans (append_st X b)

theorem append_with_total (X : Context) (t : BitVec 64) (b : Byte) :
    ({ X with total := t } : Context).append b = { X.append b with total := t } := by
  simp only [Context.append]; split <;> rfl

theorem appendAll_with_total (X : Context) (t : BitVec 64) (bs : ByteString) :
    ({ X with total := t } : Context).appendAll bs = { X.appendAll bs with total := t } := by
  induction bs generalizing X with
  | nil => rfl
  | cons b bs ih =>
    simp only [Context.appendAll, List.foldl_cons, append_with_total] at ih ⊢
    exact ih _

theorem absorb_eq_appendAll (X : Context) (data : ByteString) :
    X.absorb data = { X.appendAll data with total := X.total + BitVec.ofNat 64 data.length } := by
  induction data generalizing X with
  | nil => simp [Context.absorb, Context.appendAll]
  | cons b bs ih =>
    have : X.absorb (b :: bs) = (X.absorbByte b).absorb bs := rfl
    rw [this, ih, Context.absorbByte, appendAll_with_total, append_total]
    simp only [Context.appendAll, List.foldl_cons, List.length_cons]
    congr 1
    rw [BitVec.add_assoc]
    congr 1
    apply BitVec.eq_of_toNat_eq
    simp [BitVec.toNat_add, Nat.add_comm]

theorem appendAll_append (X : Context) (a b : ByteString) : X.appendAll (a ++ b) = (X.appendAll a).appendAll b := by
  simp [Context.appendAll]

theorem zeroPad_eq_appendAll (fuel : Nat) (X : Context) (h : (120 - X.fill.toNat) % 64 ≤ fuel) :
    X.zeroPad fuel = X.appendAll (List.replicate ((120 - X.fill.toNat) % 64) 0x00) := by
  induction fuel generalizing X with
  | zero =>
    have : (120 - X.fill.toNat) % 64 = 0 := by omega
    simp [this, Context.zeroPad, Context.appendAll]
  | succ n ih =>
    have hl := X.fill.isLt
    unfold Context.zeroPad
    by_cases h56 : X.fill = 56
    · have : X.fill.toNat = 56 := by rw [h56]; rfl
      simp [h56, Context.appendAll]
    · have hne : X.fill.toNat ≠ 56 := fun e => h56 (by apply BitVec.eq_of_toNat_eq; simpa using e)
      have hstep : (120 - X.fill.toNat) % 64 = (120 - (X.append 0x00).fill.toNat) % 64 + 1 := by
        by_cases h63 : X.fill = 63
        · rw [(append_of_eq h63 0).2.1, h63]; rfl
        · have h63' : X.fill.toNat ≠ 63 := fun e => h63 (by apply BitVec.eq_of_toNat_eq; simpa using e)
          rw [(append_of_ne h63 0).2.1]; omega
      rw [if_neg h56, ih _ (by omega), hstep, List.replicate_succ]
      rfl

theorem blockAt_append {a b : ByteString} {i : Nat} (h : 64 * i + 64 ≤ a.length) :
    blockAt (a ++ b) i = blockAt a i := by
  simp only [blockAt]
  congr 1; funext k
  exact byteAt_append_left (by have := k.isLt; omega)

theorem chain_append {a b : ByteString} {q : Nat} (V : HashState) (h : 64 * q ≤ a.length) :
    chain V (a ++ b) q = chain V a q := by
  unfold chain
  apply List.foldl_ext
  intro W i hi
  have : i < q := List.mem_range.mp hi
  rw [blockAt_append (by omega)]

theorem lengthField_length (b : BitVec 64) : (lengthField b).length = 8 := by simp [lengthField, bigEndian]

theorem lengthField_eq (t : BitVec 64) : lengthField (8 * t) = bigEndian 8 (8 * t.toNat % 2 ^ 64) := by
  simp [lengthField, BitVec.toNat_mul]

/-- The bytes FINALIZE appends, in closed form. -/
def padTail (f : Nat) (t : BitVec 64) : ByteString :=
  0x80 :: (List.replicate ((119 - f) % 64) 0x00 ++ lengthField (8 * t))

theorem append_fill (X : Context) (b : Byte) : (X.append b).fill.toNat = (X.fill.toNat + 1) % 64 := by
  have hl := X.fill.isLt
  by_cases h : X.fill = 63
  · rw [(append_of_eq h b).2.1, h]; rfl
  · have h63' : X.fill.toNat ≠ 63 := fun e => h (by apply BitVec.eq_of_toNat_eq; simpa using e)
    rw [(append_of_ne h b).2.1]; omega

theorem pad_eq_appendAll (X : Context) : X.pad = X.appendAll (padTail X.fill.toNat X.total) := by
  have hl := X.fill.isLt
  have hf := append_fill X 0x80
  unfold Context.pad
  rw [zeroPad_eq_appendAll 63 _ (by omega), ← appendAll_append]
  have hk : (120 - (X.append 0x80).fill.toNat) % 64 = (119 - X.fill.toNat) % 64 := by rw [hf]; omega
  rw [hk]
  simp [Context.appendAll, padTail]

theorem padTail_length (f : Nat) (t : BitVec 64) : (padTail f t).length = 9 + (119 - f) % 64 := by
  simp [padTail, lengthField_length]; omega

theorem pad_spec (X : Context) :
    X.pad.V = chain X.V (X.content ++ padTail X.fill.toNat X.total) (if X.fill.toNat ≤ 55 then 1 else 2)
      ∧ X.pad.fill.toNat = 0 ∧ X.pad.content = [] := by
  have hl := X.fill.isLt
  have hlen : (X.content ++ padTail X.fill.toNat X.total).length = 64 * (if X.fill.toNat ≤ 55 then 1 else 2) := by
    rw [List.length_append, content_length, padTail_length]
    split <;> omega
  obtain ⟨h1, h2, h3⟩ := appendAll_block X (padTail X.fill.toNat X.total)
  rw [← pad_eq_appendAll] at h1 h2 h3
  rw [hlen] at h1 h2 h3
  rw [Nat.mul_div_cancel_left _ (by omega)] at h1 h2
  refine ⟨h1, by rw [h3]; exact Nat.mul_mod_right _ _, ?_⟩
  rw [h2]; exact List.drop_eq_nil_of_le (by omega)

theorem finalize_eq_finalDigest (X : Context) : X.finalize = finalDigest X := by
  have hl := X.fill.isLt
  unfold Context.finalize finalDigest
  rw [(pad_spec X).1]
  simp only [padTail, lengthField_eq]
  by_cases h : X.fill.toNat ≤ 55
  · simp only [h, if_true]; congr 6; omega
  · simp only [h, if_false]; congr 6; omega

theorem wordBytes_length (w : Word) : (wordBytes w).length = 4 := by simp [wordBytes, bigEndian]

theorem digestBytes_length (V : HashState) : (digestBytes V).length = 32 := by
  have : ∀ l : List Word, (l.flatMap wordBytes).length = 4 * l.length := by
    intro l; induction l with
    | nil => rfl
    | cons w l ih => simp [wordBytes_length] at ih ⊢; omega
  simp [digestBytes, this]

theorem start_content (X : Context) : X.start.content = [] := by simp [Context.content]

theorem absorb_spec (X : Context) (data : ByteString) (h : X.total.toNat + data.length < 2 ^ 64) :
    AbsorbedTo X data (X.absorb data) := by
  rw [absorb_eq_appendAll]
  obtain ⟨h1, h2, h3⟩ := appendAll_block X data
  refine ⟨h1, h2, h3, ?_, appendAll_st X data⟩
  show (X.total + BitVec.ofNat 64 data.length).toNat = _
  simp [BitVec.toNat_add]; omega

theorem absorb_content (X : Context) (data : ByteString) : (X.absorb data).content = (X.appendAll data).content := by
  rw [absorb_eq_appendAll]; rfl

theorem finalDigest_absorb_start (X : Context) (M : ByteString) (h : M.length < 2 ^ 64) :
    finalDigest (X.start.absorb M)
        = digestBytes (chain iv (M ++ (0x80 :: (List.replicate ((119 - M.length % 64) % 64) 0x00 ++ bigEndian 8 (8 *
            M.length % 2 ^ 64)))) (blockCount M.length)) := by
  obtain ⟨h1, h2, h3, h4, -⟩ := absorb_spec X.start M (by simpa using h)
  simp only [start_content, List.nil_append] at h1 h2 h3
  rw [start_V] at h1
  simp only [start_total, BitVec.ofNat_eq_ofNat, BitVec.toNat_ofNat, Nat.zero_mod, Nat.zero_add] at h4
  unfold finalDigest
  simp only [h1, h2, h3, h4]
  have hrep : (if M.length % 64 ≤ 55 then 55 - M.length % 64 else 119 - M.length % 64)
      = (119 - M.length % 64) % 64 := by
    split <;> omega
  rw [hrep]
  generalize hT : (0x80 :: (List.replicate ((119 - M.length % 64) % 64) 0x00 ++ bigEndian 8 (8 * M.length % 2 ^ 64))
      : ByteString) = T
  congr 1
  have hb : blockCount M.length = M.length / 64 + (if M.length % 64 ≤ 55 then 1 else 2) := by
    unfold blockCount; split <;> rfl
  rw [hb, chain_add, chain_append iv (by omega), List.drop_append_of_le_length (by omega)]

theorem bigEndian_mod (n v : Nat) : bigEndian n (v % 2 ^ (8 * n)) = bigEndian n v := by
  unfold bigEndian
  apply List.map_congr_left
  intro i hi
  have hi : i < n := List.mem_range.mp hi
  apply BitVec.eq_of_toNat_eq
  simp only [BitVec.toNat_ofNat]
  have : 2 ^ (8 * n) = 2 ^ (8 * (n - 1 - i)) * (2 ^ 8 * 2 ^ (8 * i)) := by
    rw [← pow_add, ← pow_add]; congr 1; omega
  rw [this, Nat.mod_mul_right_div_self, Nat.mod_mul_right_mod]

theorem finalize_absorb_start (X : Context) (M : ByteString) (h : M.length < 2 ^ 64) :
    (X.start.absorb M).finalize = messageDigest M := by
  rw [finalize_eq_finalDigest, finalDigest_absorb_start X M h, messageDigest, padding]
  have := bigEndian_mod 8 (8 * M.length)
  simp only [Nat.reduceMul] at this
  rw [this]

theorem hash_eq_messageDigest (X : Context) (M : ByteString) (h : M.length < 2 ^ 64) :
    X.hash M = messageDigest M := finalize_absorb_start X M h

theorem messageDigest_length (M : ByteString) : (messageDigest M).length = 32 := digestBytes_length _

theorem absorb_append (X : Context) (a b : ByteString) : X.absorb (a ++ b) = (X.absorb a).absorb b := by
  simp [Context.absorb]

end Sys2Proof.Machine
end

