-- ==== Sys2Proof/Laws/Codec.lean ====
section
/-! SUPPORT. The byte order, the header and the four packet formats: reading back what was written, and what each format
accepts. -/

namespace Sys2Proof.Machine


theorem bigEndian_length (n v : Nat) : (bigEndian n v).length = n := by simp [bigEndian]

theorem byteAt_bigEndian {n v i : Nat} (h : i < n) :
    byteAt (bigEndian n v) i = BitVec.ofNat 8 (v / 2 ^ (8 * (n - 1 - i))) := by
  simp [byteAt, bigEndian, h]

theorem memRead_append_left {a b : ByteString} {k n : Nat} (h : k + n ≤ a.length) :
    memRead (a ++ b) k n = memRead a k n := by
  induction n with
  | zero => rfl
  | succ n ih => simp only [memRead, ih (by omega), byteAt_append_left (show k + n < a.length by omega)]

theorem memRead_drop (S : ByteString) (m a n : Nat) : memRead (S.drop m) a n = memRead S (m + a) n := by
  induction n with
  | zero => rfl
  | succ n ih => simp only [memRead, ih, byteAt_drop, Nat.add_assoc]

theorem memRead_bigEndian (n v m : Nat) (h : m ≤ n) :
    memRead (bigEndian n v) 0 m = v / 2 ^ (8 * (n - m)) % 2 ^ (8 * m) := by
  induction m with
  | zero => simp [memRead, Nat.mod_one]
  | succ m ih =>
    rw [memRead, ih (by omega), Nat.zero_add, byteAt_bigEndian (by omega), BitVec.toNat_ofNat]
    have e1 : v / 2 ^ (8 * (n - m)) = v / 2 ^ (8 * (n - (m + 1))) / 2 ^ 8 := by
      rw [Nat.div_div_eq_div_mul, ← pow_add]; congr 2; omega
    have e2 : 2 ^ (8 * (m + 1)) = 2 ^ 8 * 2 ^ (8 * m) := by rw [← pow_add]; congr 1; ring
    have e3 : n - 1 - m = n - (m + 1) := by omega
    rw [e1, e2, e3, Nat.mod_mul]
    omega

theorem wordAt_wordBytes_append (w : Word) (b : ByteString) : wordAt (wordBytes w ++ b) 0 = w := by
  unfold wordAt wordBytes
  rw [memRead_append_left (by simp [bigEndian_length]), memRead_bigEndian 4 _ 4 (le_refl _)]
  apply BitVec.eq_of_toNat_eq
  have := w.isLt
  simp
  omega

theorem wordAt_drop (S : ByteString) (m a : Nat) : wordAt (S.drop m) a = wordAt S (m + a) := by
  simp [wordAt, memRead_drop]

theorem drop_wordBytes_append (w : Word) (b : ByteString) : (wordBytes w ++ b).drop 4 = b := by
  rw [List.drop_append_of_le_length (by simp [wordBytes_length]), List.drop_of_length_le (by simp [wordBytes_length])]
  rfl

theorem headerWord_toNat (op : Opcode) (slot : BitVec 8) :
    (headerWord op slot).toNat = 268435456 * op.bits.toNat + 1048576 * slot.toNat := by
  have hs := slot.isLt
  have hop := op.bits.isLt
  simp only [headerWord, BitVec.toNat_ofNat]
  omega

theorem headerOpc_toNat (hd : Word) : (headerOpc hd).toNat = hd.toNat / 268435456 := by
  have := hd.isLt
  simp only [headerOpc, BitVec.extractLsb'_toNat, Nat.shiftRight_eq_div_pow]
  omega

theorem headerSlot_toNat (hd : Word) : (headerSlot hd).toNat = hd.toNat / 1048576 % 256 := by
  simp only [headerSlot, BitVec.extractLsb'_toNat, Nat.shiftRight_eq_div_pow]

theorem headerRsv_toNat (hd : Word) : (headerRsv hd).toNat = hd.toNat % 1048576 := by
  simp only [headerRsv, BitVec.extractLsb'_toNat, Nat.shiftRight_zero]

theorem headerOpc_headerWord (op : Opcode) (slot : BitVec 8) : headerOpc (headerWord op slot) = op.bits := by
  have hs := slot.isLt
  have hop := op.bits.isLt
  apply BitVec.eq_of_toNat_eq; rw [headerOpc_toNat, headerWord_toNat]; omega

theorem headerSlot_headerWord (op : Opcode) (slot : BitVec 8) : headerSlot (headerWord op slot) = slot := by
  have hs := slot.isLt
  have hop := op.bits.isLt
  apply BitVec.eq_of_toNat_eq; rw [headerSlot_toNat, headerWord_toNat]; omega

theorem headerRsv_headerWord (op : Opcode) (slot : BitVec 8) : headerRsv (headerWord op slot) = 0#20 := by
  have hs := slot.isLt
  have hop := op.bits.isLt
  apply BitVec.eq_of_toNat_eq; rw [headerRsv_toNat, headerWord_toNat, BitVec.toNat_ofNat]; omega

theorem ofBits_bits (op : Opcode) : Opcode.ofBits op.bits = some op := by cases op <;> rfl

theorem decodeHeader_headerWord (op : Opcode) (slot : BitVec 8) (h : op.slotless = true → slot = 0) :
    decodeHeader (headerWord op slot) = .ok (op, slot) := by
  unfold decodeHeader
  rw [headerOpc_headerWord, headerSlot_headerWord, headerRsv_headerWord, ofBits_bits]
  simp only [ne_eq, BitVec.ofNat_eq_ofNat, not_true_eq_false, if_false]
  rw [if_neg (fun hc => hc.2 (h hc.1))]

theorem decode_header_append (op : Opcode) (slot : BitVec 8) (h : op.slotless = true → slot = 0) (b : ByteString) :
    decode (wordBytes (headerWord op slot) ++ b) =
      (match op with
      | .compress => decodeC .compress b
      | .init => decodeN (.init slot) b
      | .update => decodeB (.update slot) b
      | .finalize => decodeN (.finalize slot) b
      | .hash => decodeB .hash b
      | .hmacInit => decodeB (.hmacInit slot) b
      | .hmacUpdate => decodeB (.hmacUpdate slot) b
      | .hmacFinish => decodeN (.hmacFinish slot) b
      | .hmac => decodeK .hmac b) := by
  unfold decode
  rw [if_neg (by simp [wordBytes_length]), wordAt_wordBytes_append, decodeHeader_headerWord op slot h,
    drop_wordBytes_append]
  cases op <;> rfl

theorem signedLength_nonneg_iff (len : BitVec 32) : 0 ≤ signedLength len ↔ len.toNat < 2 ^ 31 := by
  have := len.isLt
  simp only [signedLength, BitVec.toInt_eq_toNat_cond]; split <;> omega

theorem signedLength_of_lt {len : BitVec 32} (h : len.toNat < 2 ^ 31) : signedLength len = len.toNat := by
  have := len.isLt
  simp only [signedLength, BitVec.toInt_eq_toNat_cond]; split <;> omega

theorem lengthLegal_iff (len : BitVec 32) (data : ByteString) :
    lengthLegal len data = true ↔ len.toNat < 2 ^ 31 ∧ data.length = len.toNat := by
  simp only [lengthLegal, Bool.and_eq_true, decide_eq_true_eq, signedLength_nonneg_iff]
  constructor
  · rintro ⟨h1, h2⟩; rw [signedLength_of_lt h1] at h2; exact ⟨h1, by omega⟩
  · rintro ⟨h1, h2⟩; rw [signedLength_of_lt h1]; exact ⟨h1, by omega⟩

theorem wellFormed_iff (i : Instr) : i.WellFormed ↔ ∀ x ∈ i.strings, lengthLegal x.1 x.2 = true := by
  have key : i.formError = none ↔ (∀ x ∈ i.strings, ¬ signedLength x.1 < 0)
      ∧ (∀ x ∈ i.strings, ¬ ((x.2.length : Int) ≠ signedLength x.1)) := by
    unfold Instr.formError
    split
    · rename_i h; simp at h ⊢; intro h'; obtain ⟨a, ⟨b, hb⟩, hlt⟩ := h; have := h' a b hb; omega
    · rename_i h
      split
      · rename_i h2; simp at h h2 ⊢
        intro _; obtain ⟨a, b, hb, hlt⟩ := h2; exact ⟨a, b, hb, hlt⟩
      · rename_i h2; simp at h h2 ⊢; exact ⟨h, h2⟩
  unfold Instr.WellFormed
  rw [key]
  simp only [lengthLegal, Bool.and_eq_true, decide_eq_true_eq]
  constructor
  · rintro ⟨h1, h2⟩ x hx; exact ⟨not_lt.mp (h1 x hx), not_not.mp (h2 x hx)⟩
  · intro h; exact ⟨fun x hx => not_lt.mpr (h x hx).1, fun x hx => not_not.mpr (h x hx).2⟩

theorem decodeB_encode (mk : BitVec 32 → ByteString → Instr) (len : BitVec 32) (data : ByteString)
    (h : lengthLegal len data = true) : decodeB mk (wordBytes len ++ data) = .ok (mk len data) := by
  obtain ⟨h1, h2⟩ := (lengthLegal_iff _ _).mp h
  unfold decodeB
  rw [wordAt_wordBytes_append, drop_wordBytes_append, signedLength_of_lt h1]
  simp only [List.length_append, wordBytes_length]
  rw [if_neg (by omega), if_neg (by omega), if_neg (by push_cast; omega)]

theorem decodeK_encode (mk : BitVec 32 → BitVec 32 → ByteString → ByteString → Instr) (klen mlen : BitVec 32)
    (key data : ByteString) (h : lengthLegal klen key = true) (h' : lengthLegal mlen data = true) :
    decodeK mk (wordBytes klen ++ wordBytes mlen ++ key ++ data) = .ok (mk klen mlen key data) := by
  obtain ⟨h1, h2⟩ := (lengthLegal_iff _ _).mp h
  obtain ⟨h3, h4⟩ := (lengthLegal_iff _ _).mp h'
  have e4 : wordAt (wordBytes klen ++ wordBytes mlen ++ key ++ data) 4 = mlen := by
    have := wordAt_drop (wordBytes klen ++ wordBytes mlen ++ key ++ data) 4 0
    rw [Nat.add_zero] at this
    rw [← this, List.append_assoc, List.append_assoc, drop_wordBytes_append, wordAt_wordBytes_append]
  have e8 : (wordBytes klen ++ wordBytes mlen ++ key ++ data).drop 8 = key ++ data := by
    rw [show 8 = 4 + 4 by rfl, ← List.drop_drop, List.append_assoc, List.append_assoc, drop_wordBytes_append,
      drop_wordBytes_append]
  have e0 : wordAt (wordBytes klen ++ wordBytes mlen ++ key ++ data) 0 = klen := by
    rw [List.append_assoc, List.append_assoc, wordAt_wordBytes_append]
  unfold decodeK
  rw [e0, e4, e8, signedLength_of_lt h1, signedLength_of_lt h3]
  simp only [List.length_append, wordBytes_length]
  rw [if_neg (by omega), if_neg (by omega), if_neg (by push_cast; omega)]
  rw [← h2, List.take_left, List.drop_left]

theorem stateWords_encode (V : HashState) (b : ByteString) : stateWords (digestBytes V ++ b) = V := by
  obtain ⟨⟨l⟩, hl⟩ := V
  have hl : l.length = 8 := by simpa using hl
  match l, hl with
  | [a0, a1, a2, a3, a4, a5, a6, a7], _ =>
    have hd : digestBytes ⟨⟨[a0, a1, a2, a3, a4, a5, a6, a7]⟩, hl⟩ ++ b =
      wordBytes a0 ++ (wordBytes a1 ++ (wordBytes a2 ++ (wordBytes a3 ++ (wordBytes a4 ++ (wordBytes a5 ++ (wordBytes
          a6 ++ (wordBytes a7 ++ b))))))) := by
      simp [digestBytes, Vector.toList]
    have step : ∀ (w : Word) (r : ByteString) (k : Nat), wordAt (wordBytes w ++ r) (4 + k) = wordAt r k := by
      intro w r k; rw [← wordAt_drop, drop_wordBytes_append]
    apply Vector.ext
    intro i hi
    unfold stateWords
    rw [Vector.getElem_ofFn, hd]
    match i, hi with
    | 0, _ => exact wordAt_wordBytes_append _ _
    | 1, _ => exact (step _ _ 0).trans (wordAt_wordBytes_append _ _)
    | 2, _ => exact (step _ _ 4).trans ((step _ _ 0).trans (wordAt_wordBytes_append _ _))
    | 3, _ => exact (step _ _ 8).trans <| (step _ _ 4).trans ((step _ _ 0).trans (wordAt_wordBytes_append _ _))
    | 4, _ => exact (step _ _ 12).trans <| (step _ _ 8).trans <|
        (step _ _ 4).trans ((step _ _ 0).trans (wordAt_wordBytes_append _ _))
    | 5, _ => exact (step _ _ 16).trans <| (step _ _ 12).trans <| (step _ _ 8).trans <|
        (step _ _ 4).trans ((step _ _ 0).trans (wordAt_wordBytes_append _ _))
    | 6, _ => exact (step _ _ 20).trans <| (step _ _ 16).trans <| (step _ _ 12).trans <| (step _ _ 8).trans <|
        (step _ _ 4).trans ((step _ _ 0).trans (wordAt_wordBytes_append _ _))
    | 7, _ => exact (step _ _ 24).trans <| (step _ _ 20).trans <| (step _ _ 16).trans <| (step _ _ 12).trans <|
        (step _ _ 8).trans <| (step _ _ 4).trans ((step _ _ 0).trans (wordAt_wordBytes_append _ _))

theorem blockBytes_encode (a : ByteString) (B : Block) (h : a.length = 32) : blockBytes (a ++ B.toList) = B := by
  apply Vector.ext
  intro i hi
  unfold blockBytes
  rw [Vector.getElem_ofFn]
  simp only [byteAt, List.getD_eq_getElem?_getD]
  rw [List.getElem?_append_right (by omega), h, Nat.add_sub_cancel_left]
  simp [hi]


theorem byteAt_toNat_lt (S : ByteString) (i : Nat) : (byteAt S i).toNat < 256 := (byteAt S i).isLt

theorem memRead_lt (S : ByteString) (a n : Nat) : memRead S a n < 2 ^ (8 * n) := by
  induction n with
  | zero => simp [memRead]
  | succ n ih =>
    have h := byteAt_toNat_lt S (a + n)
    have : 2 ^ (8 * (n + 1)) = 256 * 2 ^ (8 * n) := by rw [Nat.mul_succ, Nat.pow_add]; ring
    rw [memRead, this]; omega

theorem wordAt_toNat (S : ByteString) (a : Nat) : (wordAt S a).toNat = memRead S a 4 := by
  have := memRead_lt S a 4
  simp only [wordAt, BitVec.toNat_ofNat]
  exact Nat.mod_eq_of_lt this

theorem take4 (S : ByteString) (h : 4 ≤ S.length) : wordBytes (wordAt S 0) = S.take 4 := by
  match S, h with
  | a :: b :: c :: d :: r, _ =>
    have ha := a.isLt
    have hb := b.isLt
    have hc := c.isLt
    have hd := d.isLt
    have : memRead (a :: b :: c :: d :: r) 0 4 = 256 * (256 * (256 * a.toNat + b.toNat) + c.toNat) + d.toNat := by
      simp [memRead, byteAt]
    unfold wordBytes
    rw [wordAt_toNat, this]
    simp only [bigEndian, List.range, List.range.loop, List.map, List.take]
    congr 1
    · apply BitVec.eq_of_toNat_eq; simp only [BitVec.toNat_ofNat]; omega
    congr 1
    · apply BitVec.eq_of_toNat_eq; simp only [BitVec.toNat_ofNat]; omega
    congr 1
    · apply BitVec.eq_of_toNat_eq; simp only [BitVec.toNat_ofNat]; omega
    congr 1
    · apply BitVec.eq_of_toNat_eq; simp only [BitVec.toNat_ofNat]; omega

theorem word_split (S : ByteString) (h : 4 ≤ S.length) : S = wordBytes (wordAt S 0) ++ S.drop 4 := by
  rw [take4 S h, List.take_append_drop]

theorem ofBits_eq {b : BitVec 4} {op : Opcode} (h : Opcode.ofBits b = some op) : b = op.bits := by
  revert b op; decide

theorem decodeHeader_ok {hd : Word} {op : Opcode} {slot : BitVec 8} (h : decodeHeader hd = .ok (op, slot)) :
    hd = headerWord op slot ∧ (op.slotless = true → slot = 0) := by
  unfold decodeHeader at h
  split at h
  · cases h
  rename_i op' hop
  split_ifs at h with h1 h2
  cases h
  rw [not_not] at h1
  refine ⟨?_, fun hs => by by_contra hc; exact h2 ⟨hs, hc⟩⟩
  have e1 := headerOpc_toNat hd
  rw [ofBits_eq hop] at e1
  have e2 := headerSlot_toNat hd
  have e3 := headerRsv_toNat hd
  rw [h1] at e3
  have e3' : 0 = hd.toNat % 1048576 := e3
  apply BitVec.eq_of_toNat_eq
  rw [headerWord_toNat]
  omega

theorem decodeN_ok {i j : Instr} {b : ByteString} (h : decodeN i b = .ok j) : j = i ∧ b = [] := by
  unfold decodeN at h
  split_ifs at h with h1
  cases h
  exact ⟨rfl, List.eq_nil_of_length_eq_zero h1⟩

theorem decodeB_ok {mk : BitVec 32 → ByteString → Instr} {j : Instr} {b : ByteString} (h : decodeB mk b = .ok j) :
    ∃ len data, j = mk len data ∧ lengthLegal len data = true ∧ b = wordBytes len ++ data := by
  unfold decodeB at h
  split_ifs at h with h1 h2 h3
  cases h
  refine ⟨_, _, rfl, ?_, word_split b (by omega)⟩
  rw [lengthLegal_iff]
  have h4 : (wordAt b 0).toNat < 2 ^ 31 := (signedLength_nonneg_iff _).mp (by omega)
  refine ⟨h4, ?_⟩
  rw [signedLength_of_lt h4] at h3
  simp; omega

theorem decodeK_ok {mk : BitVec 32 → BitVec 32 → ByteString → ByteString → Instr} {j : Instr} {b : ByteString}
    (h : decodeK mk b = .ok j) :
    ∃ klen mlen key data, j = mk klen mlen key data ∧ lengthLegal klen key = true ∧ lengthLegal mlen data = true
      ∧ b = wordBytes klen ++ wordBytes mlen ++ key ++ data := by
  unfold decodeK at h
  split_ifs at h with h1 h2 h3
  cases h
  have h4 : (wordAt b 0).toNat < 2 ^ 31 := (signedLength_nonneg_iff _).mp (by omega)
  have h5 : (wordAt b 4).toNat < 2 ^ 31 := (signedLength_nonneg_iff _).mp (by omega)
  rw [signedLength_of_lt h4, signedLength_of_lt h5] at h3
  refine ⟨_, _, _, _, rfl, ?_, ?_, ?_⟩
  · rw [lengthLegal_iff]; exact ⟨h4, by simp; omega⟩
  · rw [lengthLegal_iff]; exact ⟨h5, by simp; omega⟩
  · have e1 := word_split b (by omega)
    have e2 := word_split (b.drop 4) (by simp; omega)
    rw [wordAt_drop, List.drop_drop] at e2
    rw [List.append_assoc, List.append_assoc, List.take_append_drop, ← e2]
    exact e1

theorem bytes_eq {a b : ByteString} (hl : a.length = b.length) (h : ∀ i, i < a.length → byteAt a i = byteAt b i) :
    a = b := by
  apply List.ext_getElem hl
  intro i h1 h2
  have := h i h1
  simpa [byteAt, h1, h2] using this

theorem digest_stateWords (b : ByteString) (h : 32 ≤ b.length) : digestBytes (stateWords b) = b.take 32 := by
  have key : ∀ (n k : Nat), 4 * k + 4 * n ≤ b.length →
      (List.ofFn fun i : Fin n => wordAt b (4 * (k + i.val))).flatMap wordBytes = (b.drop (4 * k)).take (4 * n) := by
    intro n
    induction n with
    | zero => intro k _; simp
    | succ n ih =>
      intro k hk
      rw [List.ofFn_succ, List.flatMap_cons]
      have e : (fun i : Fin n => wordAt b (4 * (k + (i.succ).val)))
          = fun i : Fin n => wordAt b (4 * ((k + 1) + i.val)) := by
        funext i; congr 2; simp; ring
      rw [e, ih (k + 1) (by omega)]
      have e2 := take4 (b.drop (4 * k)) (by simp; omega)
      rw [wordAt_drop] at e2
      simp only [Fin.val_zero, Nat.add_zero] at e2 ⊢
      rw [e2, show 4 * (k + 1) = 4 * k + 4 by ring, ← List.drop_drop, show 4 * (n + 1)
          = 4 + 4 * n by ring, List.take_add]
  have := key 8 0 (by omega)
  simp only [Nat.zero_add, Nat.mul_zero, List.drop_zero] at this
  unfold digestBytes stateWords
  rw [Vector.toList_ofFn]
  exact this

theorem blockBytes_toList (b : ByteString) (h : b.length = 96) : (blockBytes b).toList = b.drop 32 := by
  unfold blockBytes
  rw [Vector.toList_ofFn]
  apply List.ext_getElem
  · simp [h]
  · intro i h1 h2
    rw [List.length_ofFn] at h1
    rw [List.getElem_ofFn, List.getElem_drop, byteAt, List.getD_eq_getElem?_getD,
      List.getElem?_eq_getElem (by show 32 + i < b.length; omega)]
    rfl

theorem decodeC_ok {mk : HashState → Block → Instr} {j : Instr} {b : ByteString} (h : decodeC mk b = .ok j) :
    ∃ V B, j = mk V B ∧ b = digestBytes V ++ B.toList := by
  unfold decodeC at h
  split_ifs at h with h1
  cases h
  refine ⟨_, _, rfl, ?_⟩
  rw [digest_stateWords b (by omega), blockBytes_toList b h1, List.take_append_drop]

end Sys2Proof.Machine
end

