-- ==== Sys2Proof/Laws/Ops.lean ====
section
/-! SUPPORT. What each shared operation, and each command, can do: one lemma per operation for the next states it gives,
one per command for the whole of its effect once it is admitted. -/

namespace Sys2Proof.Machine

theorem raiseInvalidInput_eq (s : State) : s.raiseInvalidInput = .next s.rejected := rfl

theorem guarded_of_consistent {s : State} (h : s.consistent = true) (run : Result) : s.guarded run = run := by
  simp [State.guarded, h]

theorem guarded_of_inconsistent {s : State} (h : s.consistent = false) (run : Result) :
    s.guarded run = .fault .fatalAssert := by
  simp [State.guarded, h]

theorem guarded_eq_next {s t : State} {run : Result} (h : s.guarded run = .next t) :
    s.consistent = true ∧ run = .next t := by
  unfold State.guarded at h
  split at h
  · exact ⟨‹_›, h⟩
  · cases h

theorem receive_eq_some {s s' : State} {e : HostEvent} (h : s.receive = some (e, s')) :
    ∃ rest, s.input = e :: rest ∧ s' = { s with input := rest } := by
  unfold State.receive at h
  split at h
  · cases h
  · cases h; exact ⟨_, ‹_›, rfl⟩

theorem receive_eq_none {s : State} : s.receive = none ↔ s.input = [] := by
  unfold State.receive
  split <;> simp_all

theorem admitActive_eq_next {α : Type} {s t : State} {slot : Option α} {ctxOf : α → Context} {run : α → Result}
    (h : s.admitActive slot ctxOf run = .next t) :
    t = s.rejected ∨ ∃ a, slot = some a ∧ (ctxOf a).isActive = true ∧ run a = .next t := by
  unfold State.admitActive at h
  split at h
  · cases h; exact .inl rfl
  · split at h
    · exact .inr ⟨_, rfl, ‹_›, h⟩
    · cases h; exact .inl rfl

theorem admitActive_of_active {α : Type} {s : State} {a : α} {ctxOf : α → Context} (run : α → Result)
    (h : (ctxOf a).st = Status.active) : s.admitActive (some a) ctxOf run = run a := by
  simp [State.admitActive, Context.isActive, h]

theorem admitData_eq_next {α : Type} {s t : State} {slot : Option α} {ctxOf : α → Context} {len : BitVec 32}
    {data : ByteString} {run : α → Result} (h : s.admitData slot ctxOf len data run = .next t) :
    t = s.rejected ∨ ∃ a, slot = some a ∧ lengthLegal len data = true ∧ (ctxOf a).isActive = true
      ∧ (ctxOf a).withinBound data.length = true ∧ run a = .next t := by
  unfold State.admitData at h
  split at h
  · cases h; exact .inl rfl
  · split at h
    · split at h
      · split at h
        · exact .inr ⟨_, rfl, ‹_›, ‹_›, ‹_›, h⟩
        · cases h
      · cases h; exact .inl rfl
    · cases h; exact .inl rfl

theorem admitData_of_admitted {α : Type} {s : State} {a : α} {ctxOf : α → Context} {len : BitVec 32} {data : ByteString}
    (run : α → Result) (hl : lengthLegal len data = true) (hs : (ctxOf a).st = Status.active)
    (hb : (ctxOf a).total.toNat + data.length < 2 ^ 61) : s.admitData (some a) ctxOf len data run = run a := by
  have h1 : (ctxOf a).withinBound data.length = true := decide_eq_true hb
  simp [State.admitData, Context.isActive, hl, hs, h1]

/-! ### The state each admitted command leaves -/

/-- What COMPRESS leaves. -/
def State.afterCompress (s : State) (V : HashState) (block : Block) : State :=
  { s with
    datapath := Datapath.unspecified s.serial
    responses := s.responses ++ [.ok (digestBytes (compress V block))]
    serial := s.serial + 1 }

/-- What INIT leaves, in slot `c` of contents `X`. -/
def State.afterInit (s : State) (c : BitVec 8) (X : Context) : State :=
  { s with
    ctx := s.ctx.set c.toNat (X.start.settle s.serial (.ctx c.toNat))
    responses := s.responses ++ [.ok []]
    serial := s.serial + 1 }

/-- What UPDATE leaves. -/
def State.afterUpdate (s : State) (c : BitVec 8) (X : Context) (data : ByteString) : State :=
  { s with
    ctx := s.ctx.set c.toNat (X.updated s.serial (.ctx c.toNat) data)
    datapath := if X.fillsBlock data then Datapath.unspecified s.serial else s.datapath
    responses := s.responses ++ [.ok []]
    serial := s.serial + 1 }

/-- What FINALIZE leaves. -/
def State.afterFinalize (s : State) (c : BitVec 8) (X : Context) : State :=
  { s with
    ctx := s.ctx.set c.toNat (Context.unspecified s.serial (.ctx c.toNat) Status.final)
    datapath := Datapath.unspecified s.serial
    responses := s.responses ++ [.ok X.finalize]
    serial := s.serial + 1 }

/-- What HASH leaves. -/
def State.afterHash (s : State) (data : ByteString) : State :=
  { s with
    scr := scrUnspecified s.serial
    datapath := Datapath.unspecified s.serial
    responses := s.responses ++ [.ok (s.scr.hash data)]
    serial := s.serial + 1 }

/-- What HMAC_INIT leaves. -/
def State.afterHmacInit (s : State) (h : BitVec 8) (Y : HmacContext) (key : ByteString) : State :=
  { s with
    hctx := s.hctx.set h.toNat
      { Y.start s.scr key with inner := (Y.start s.scr key).inner.settle s.serial (.inner h.toNat) }
    scr := if keyOversized key then scrUnspecified s.serial else s.scr
    datapath := Datapath.unspecified s.serial
    responses := s.responses ++ [.ok []]
    serial := s.serial + 1 }

/-- What HMAC_UPDATE leaves. -/
def State.afterHmacUpdate (s : State) (h : BitVec 8) (Y : HmacContext) (data : ByteString) : State :=
  { s with
    hctx := s.hctx.set h.toNat { Y with inner := Y.inner.updated s.serial (.inner h.toNat) data }
    datapath := if Y.inner.fillsBlock data then Datapath.unspecified s.serial else s.datapath
    responses := s.responses ++ [.ok []]
    serial := s.serial + 1 }

/-- What HMAC_FINISH leaves. -/
def State.afterHmacFinish (s : State) (h : BitVec 8) (Y : HmacContext) : State :=
  { s with
    hctx := s.hctx.set h.toNat
      { Y with
        inner := Context.unspecified s.serial (.inner h.toNat) Status.final
        outer := Context.unspecified s.serial (.outer h.toNat) Status.final }
    datapath := Datapath.unspecified s.serial
    responses := s.responses ++ [.ok Y.finish]
    serial := s.serial + 1 }

/-- What HMAC leaves. -/
def State.afterHmac (s : State) (key data : ByteString) : State :=
  { s with
    scr := if keyOversized key then scrUnspecified s.serial else s.scr
    hscr := hscrUnspecified s.serial
    datapath := Datapath.unspecified s.serial
    responses := s.responses ++ [.ok ((s.hscr.start s.scr key).absorb data).finish]
    serial := s.serial + 1 }

/-- The effect a decoded command has when it is admitted, as a relation of the states before and after. -/
def Effect (s t : State) : Instr → Prop
  | .compress V block => t = s.afterCompress V block
  | .init c => ∃ X, s.ctx[c.toNat]? = some X ∧ t = s.afterInit c X
  | .update c len data => ∃ X, s.ctx[c.toNat]? = some X ∧ lengthLegal len data = true ∧ X.isActive = true
      ∧ X.withinBound data.length = true ∧ t = s.afterUpdate c X data
  | .finalize c => ∃ X, s.ctx[c.toNat]? = some X ∧ X.isActive = true ∧ t = s.afterFinalize c X
  | .hash len data => lengthLegal len data = true ∧ t = s.afterHash data
  | .hmacInit h len key => ∃ Y, s.hctx[h.toNat]? = some Y ∧ lengthLegal len key = true ∧ t = s.afterHmacInit h Y key
  | .hmacUpdate h len data => ∃ Y, s.hctx[h.toNat]? = some Y ∧ lengthLegal len data = true ∧ Y.inner.isActive = true
      ∧ Y.inner.withinBound data.length = true ∧ t = s.afterHmacUpdate h Y data
  | .hmacFinish h => ∃ Y, s.hctx[h.toNat]? = some Y ∧ Y.inner.isActive = true ∧ t = s.afterHmacFinish h Y
  | .hmac klen mlen key data => lengthLegal klen key = true ∧ lengthLegal mlen data = true ∧ t = s.afterHmac key data

theorem releaseDatapath_eq (s : State) (u : Bool) :
    s.releaseDatapath u = { s with datapath := if u then Datapath.unspecified s.serial else s.datapath } := by
  cases u <;> rfl

theorem releaseScr_eq (s : State) (u : Bool) :
    s.releaseScr u = { s with scr := if u then scrUnspecified s.serial else s.scr } := by
  cases u <;> rfl

/-- Everything a command that gives a next state can do: it is turned away, or it has its effect. -/
theorem exec_eq_next {i : Instr} {s t : State} (h : exec i s = .next t) :
    s.consistent = true ∧ (t = s.rejected ∨ Effect s t i) := by
  cases i with
  | compress V block =>
    obtain ⟨hc, h⟩ := guarded_eq_next h
    cases h; exact ⟨hc, .inr rfl⟩
  | init c =>
    obtain ⟨hc, h⟩ := guarded_eq_next h
    refine ⟨hc, ?_⟩
    split at h
    · cases h; exact .inl rfl
    · cases h; exact .inr ⟨_, ‹_›, rfl⟩
  | update c len data =>
    obtain ⟨hc, h⟩ := guarded_eq_next h
    obtain rfl | ⟨X, h1, h2, h3, h4, h⟩ := admitData_eq_next h
    · exact ⟨hc, .inl rfl⟩
    · rw [releaseDatapath_eq] at h; cases h; exact ⟨hc, .inr ⟨X, h1, h2, h3, h4, rfl⟩⟩
  | finalize c =>
    obtain ⟨hc, h⟩ := guarded_eq_next h
    obtain rfl | ⟨X, h1, h2, h⟩ := admitActive_eq_next h
    · exact ⟨hc, .inl rfl⟩
    · cases h; exact ⟨hc, .inr ⟨X, h1, h2, rfl⟩⟩
  | hash len data =>
    obtain ⟨hc, h⟩ := guarded_eq_next h
    refine ⟨hc, ?_⟩
    split at h
    · cases h; exact .inr ⟨‹_›, rfl⟩
    · cases h; exact .inl rfl
  | hmacInit k len key =>
    obtain ⟨hc, h⟩ := guarded_eq_next h
    refine ⟨hc, ?_⟩
    split at h
    · cases h; exact .inl rfl
    · split at h
      · rw [releaseScr_eq] at h; cases h; exact .inr ⟨_, ‹_›, ‹_›, rfl⟩
      · cases h; exact .inl rfl
  | hmacUpdate k len data =>
    obtain ⟨hc, h⟩ := guarded_eq_next h
    obtain rfl | ⟨Y, h1, h2, h3, h4, h⟩ := admitData_eq_next h
    · exact ⟨hc, .inl rfl⟩
    · rw [releaseDatapath_eq] at h; cases h; exact ⟨hc, .inr ⟨Y, h1, h2, h3, h4, rfl⟩⟩
  | hmacFinish k =>
    obtain ⟨hc, h⟩ := guarded_eq_next h
    obtain rfl | ⟨Y, h1, h2, h⟩ := admitActive_eq_next h
    · exact ⟨hc, .inl rfl⟩
    · cases h; exact ⟨hc, .inr ⟨Y, h1, h2, rfl⟩⟩
  | hmac klen mlen key data =>
    obtain ⟨hc, h⟩ := guarded_eq_next h
    refine ⟨hc, ?_⟩
    split at h
    · rename_i hl
      rw [Bool.and_eq_true] at hl
      rw [releaseScr_eq] at h; cases h; exact .inr ⟨hl.1, hl.2, rfl⟩
    · cases h; exact .inl rfl

/-- Everything a step that gives a next state can do. -/
theorem step_eq_next {s t : State} (h : step s = .next t) :
    (s.input = [] ∧ t = s)
    ∨ (∃ rest, s.input = .reset :: rest ∧ t = ({ s with input := rest } : State).takeReset)
    ∨ (∃ p rest, s.input = .packet p :: rest ∧ runPacket p { s with input := rest } = .next t) := by
  unfold step at h
  split at h
  · rename_i h0; cases h; exact .inl ⟨receive_eq_none.mp h0, rfl⟩
  · rename_i h0; obtain ⟨rest, h1, rfl⟩ := receive_eq_some h0
    cases h; exact .inr (.inl ⟨rest, h1, rfl⟩)
  · rename_i h0; obtain ⟨rest, h1, rfl⟩ := receive_eq_some h0
    exact .inr (.inr ⟨_, rest, h1, h⟩)

/-- Everything a packet that gives a next state can do. -/
theorem runPacket_eq_next {p : ByteString} {s t : State} (h : runPacket p s = .next t) :
    s.consistent = true ∧ (t = s.rejected ∨ ∃ i, decode p = .ok i ∧ Effect s t i) := by
  unfold runPacket at h
  split at h
  · obtain ⟨hc, h | h⟩ := exec_eq_next h
    · exact ⟨hc, .inl h⟩
    · exact ⟨hc, .inr ⟨_, ‹_›, h⟩⟩
  · obtain ⟨hc, h⟩ := guarded_eq_next h
    cases h; exact ⟨hc, .inl rfl⟩

/-! ### An admitted command has its effect -/

theorem exec_compress {s : State} (V : HashState) (block : Block) (hc : s.consistent = true) :
    exec (.compress V block) s = .next (s.afterCompress V block) :=
  guarded_of_consistent hc _

theorem exec_init {s : State} {c : BitVec 8} {X : Context} (hc : s.consistent = true) (hX : s.ctx[c.toNat]? = some X) :
    exec (.init c) s = .next (s.afterInit c X) := by
  show execInit c s = _
  unfold execInit
  simp only [guarded_of_consistent hc, slotIndex, hX]
  rfl

theorem exec_update {s : State} {c : BitVec 8} {X : Context} {len : BitVec 32} {data : ByteString}
    (hc : s.consistent = true) (hX : s.ctx[c.toNat]? = some X) (hs : X.st = Status.active)
    (hl : lengthLegal len data = true) (hb : X.total.toNat + data.length < 2 ^ 61) :
    exec (.update c len data) s = .next (s.afterUpdate c X data) := by
  show execUpdate c len data s = _
  unfold execUpdate
  simp only [guarded_of_consistent hc, slotIndex, hX]
  rw [admitData_of_admitted _ hl hs hb, releaseDatapath_eq]
  rfl

theorem exec_finalize {s : State} {c : BitVec 8} {X : Context} (hc : s.consistent = true)
    (hX : s.ctx[c.toNat]? = some X) (hs : X.st = Status.active) :
    exec (.finalize c) s = .next (s.afterFinalize c X) := by
  show execFinalize c s = _
  unfold execFinalize
  simp only [guarded_of_consistent hc, slotIndex, hX]
  rw [admitActive_of_active _ hs]
  rfl

theorem exec_hash {s : State} {len : BitVec 32} {data : ByteString} (hc : s.consistent = true)
    (hl : lengthLegal len data = true) : exec (.hash len data) s = .next (s.afterHash data) := by
  show execHash len data s = _
  unfold execHash
  simp only [guarded_of_consistent hc, hl, if_true]
  rfl

theorem exec_hmacInit {s : State} {h : BitVec 8} {Y : HmacContext} {len : BitVec 32} {key : ByteString}
    (hc : s.consistent = true) (hY : s.hctx[h.toNat]? = some Y) (hl : lengthLegal len key = true) :
    exec (.hmacInit h len key) s = .next (s.afterHmacInit h Y key) := by
  show execHmacInit h len key s = _
  unfold execHmacInit
  simp only [guarded_of_consistent hc, slotIndex, hY, hl, if_true]
  rw [releaseScr_eq]
  rfl

theorem exec_hmacUpdate {s : State} {h : BitVec 8} {Y : HmacContext} {len : BitVec 32} {data : ByteString}
    (hc : s.consistent = true) (hY : s.hctx[h.toNat]? = some Y) (hs : Y.inner.st = Status.active)
    (hl : lengthLegal len data = true) (hb : Y.inner.total.toNat + data.length < 2 ^ 61) :
    exec (.hmacUpdate h len data) s = .next (s.afterHmacUpdate h Y data) := by
  show execHmacUpdate h len data s = _
  unfold execHmacUpdate
  simp only [guarded_of_consistent hc, slotIndex, hY]
  rw [admitData_of_admitted _ hl hs hb, releaseDatapath_eq]
  rfl

theorem exec_hmacFinish {s : State} {h : BitVec 8} {Y : HmacContext} (hc : s.consistent = true)
    (hY : s.hctx[h.toNat]? = some Y) (hs : Y.inner.st = Status.active) :
    exec (.hmacFinish h) s = .next (s.afterHmacFinish h Y) := by
  show execHmacFinish h s = _
  unfold execHmacFinish
  simp only [guarded_of_consistent hc, slotIndex, hY]
  rw [admitActive_of_active _ hs]
  rfl

theorem exec_hmac {s : State} {klen mlen : BitVec 32} {key data : ByteString} (hc : s.consistent = true)
    (hk : lengthLegal klen key = true) (hm : lengthLegal mlen data = true) :
    exec (.hmac klen mlen key data) s = .next (s.afterHmac key data) := by
  show execHmac klen mlen key data s = _
  unfold execHmac
  simp only [guarded_of_consistent hc, hk, hm, Bool.and_self, if_true]
  rw [releaseScr_eq]
  rfl

/-! ### Runs -/

theorem run_succ_of_next {s t : State} (k : Nat) (h : step s = .next t) :
    Host.Core.run Sys2Proof.core (k + 1) s = Host.Core.run Sys2Proof.core k t := by
  have e : Sys2Proof.core.step s = .next t := h
  simp only [Host.Core.run, e]

/-- A run that faults does so in its first step or after it. -/
theorem run_succ_eq_fault {s : State} {k : Nat} {f : Fault}
    (h : Host.Core.run Sys2Proof.core (k + 1) s = .fault f) :
    step s = .fault f ∨ ∃ t, step s = .next t ∧ Host.Core.run Sys2Proof.core k t = .fault f := by
  cases hst : step s with
  | next t => exact .inr ⟨t, rfl, by rw [← run_succ_of_next k hst]; exact h⟩
  | fault r => exact .inl (by cases r; cases f; rfl)
  | refused r =>
    have e : Sys2Proof.core.step s = .refused r := hst
    simp only [Host.Core.run, e] at h
    cases h

end Sys2Proof.Machine
end

