-- ==== Sys2Proof/Laws/PerInstr.lean ====
section
/-! SUPPORT. The family of per-instruction laws: the exact length of the packet of each command (30_encoding.md R93). -/

namespace Sys2Proof.Laws

/-- The packet of a command is a 4-byte header, 4 bytes for each length operand, the byte strings, and, for COMPRESS, 32
state bytes and 64 block bytes. -/
def PacketLength.Statement (i : Instr) : Prop :=
  (encode i).length =
    match i with
    | .compress _ _ => 100
    | .init _ => 4
    | .update _ _ data => 8 + data.length
    | .finalize _ => 4
    | .hash _ data => 8 + data.length
    | .hmacInit _ _ key => 8 + key.length
    | .hmacUpdate _ _ data => 8 + data.length
    | .hmacFinish _ => 4
    | .hmac _ _ key data => 12 + key.length + data.length

open Machine

theorem PacketLength.compress (V : HashState) (block : Block) : PacketLength.Statement (.compress V block) := by
  simp [PacketLength.Statement, encode, wordBytes_length, digestBytes_length]

theorem PacketLength.init (c : BitVec 8) : PacketLength.Statement (.init c) := by
  simp [PacketLength.Statement, encode, wordBytes_length]

theorem PacketLength.update (c : BitVec 8) (len : BitVec 32) (data : ByteString) :
    PacketLength.Statement (.update c len data) := by
  simp [PacketLength.Statement, encode, wordBytes_length]; omega

theorem PacketLength.finalize (c : BitVec 8) : PacketLength.Statement (.finalize c) := by
  simp [PacketLength.Statement, encode, wordBytes_length]

theorem PacketLength.hash (len : BitVec 32) (data : ByteString) : PacketLength.Statement (.hash len data) := by
  simp [PacketLength.Statement, encode, wordBytes_length]; omega

theorem PacketLength.hmacInit (h : BitVec 8) (len : BitVec 32) (key : ByteString) :
    PacketLength.Statement (.hmacInit h len key) := by
  simp [PacketLength.Statement, encode, wordBytes_length]; omega

theorem PacketLength.hmacUpdate (h : BitVec 8) (len : BitVec 32) (data : ByteString) :
    PacketLength.Statement (.hmacUpdate h len data) := by
  simp [PacketLength.Statement, encode, wordBytes_length]; omega

theorem PacketLength.hmacFinish (h : BitVec 8) : PacketLength.Statement (.hmacFinish h) := by
  simp [PacketLength.Statement, encode, wordBytes_length]

theorem PacketLength.hmac (klen mlen : BitVec 32) (key data : ByteString) :
    PacketLength.Statement (.hmac klen mlen key data) := by
  simp [PacketLength.Statement, encode, wordBytes_length]; omega

end Sys2Proof.Laws
end

