-- ==== Sys2Proof/Laws/Slots.lean ====
section
/-! SUPPORT. What the procedures leave in a slot: settled buffers, absorption as a relation, the pads of a key,
    and what is
defined of a slot. -/

namespace Sys2Proof.Machine

theorem settle_content (X : Context) (n : Nat) (o : Owner) : (X.settle n o).content = X.content := by
  apply List.ext_getElem
  · rw [content_length, content_length]; rfl
  · intro i h1 h2
    rw [content_length] at h2
    simp [Context.content, Context.settle, meaningfulBytes, h2]

theorem settle_view (X : Context) (n : Nat) (o : Owner) : (X.settle n o).view = X.view := by
  unfold Context.view
  rw [settle_content]; rfl

theorem settle_absorbedTo {X X' : Context} {data : ByteString} (n : Nat) (o : Owner) (h : AbsorbedTo X data X') :
    AbsorbedTo X data (X'.settle n o) := by
  obtain ⟨h1, h2, h3, h4, h5⟩ := h
  exact ⟨h1, by rw [settle_content]; exact h2, h3, h4, h5⟩

theorem updated_absorbedTo {X : Context} {data : ByteString} (n : Nat) (o : Owner)
    (h : X.total.toNat + data.length < 2 ^ 61) :
    AbsorbedTo X data (X.updated n o data) := by
  unfold Context.updated
  have hs := absorb_spec X data (by omega)
  cases data with
  | nil => exact hs
  | cons b bs => exact settle_absorbedTo n o hs

theorem updated_st (X : Context) (n : Nat) (o : Owner) (data : ByteString) : (X.updated n o data).st = X.st := by
  unfold Context.updated
  split
  · rfl
  · rw [settle_st, absorb_eq_appendAll]; exact appendAll_st _ _

theorem rightPadded_toList {k : ByteString} (h : k.length ≤ 64) : (rightPadded k).toList
    = k ++ List.replicate (64 - k.length) 0x00 := by
  apply List.ext_getElem
  · simp; omega
  · intro i h1 h2
    have hi : i < 64 := by simpa using h1
    simp only [rightPadded, Vector.toList_ofFn, List.getElem_ofFn, byteAt, List.getD_eq_getElem?_getD]
    by_cases hk : i < k.length
    · simp [hk, List.getElem_append_left]
    · rw [List.getElem_append_right (by omega), List.getElem_replicate]; simp [hk]

theorem keyBlock_toList (scr : Context) {key : ByteString} (h : key.length < 2 ^ 64) :
    (keyBlock scr key).toList = normalisedKey key := by
  unfold keyBlock normalisedKey keyOversized hmacBlockLength
  simp only [decide_eq_true_eq]
  rw [hash_eq_messageDigest _ _ h, rightPadded_toList]
  split
  · simp [messageDigest_length]
  · omega

theorem padOf_toList (k0 : Block) (b : Byte) : (padOf k0 b).toList = k0.toList.map fun x => x ^^^ b := by
  unfold padOf; exact Vector.toList_map ..

theorem pad_toList (scr : Context) {key : ByteString} (b : Byte) (h : key.length < 2 ^ 64) :
    (padOf (keyBlock scr key) b).toList = keyPad key b := by
  rw [padOf_toList, keyBlock_toList _ h]; rfl

theorem keyOversized_of_le {key : ByteString} (h : key.length ≤ 64) : keyOversized key = false :=
  decide_eq_false (by unfold hmacBlockLength; omega)

theorem blockAt_toList (B : Block) : blockAt B.toList 0 = B := by
  apply Vector.ext
  intro i hi
  simp [blockAt, byteAt]

theorem chain_one (V : HashState) (S : ByteString) : chain V S 1 = compress V (blockAt S 0) := by
  rw [show (1 : Nat) = 0 + 1 by rfl, chain_succ, chain_zero]

theorem absorb_pad (X : Context) (B : Block) :
    let Z := X.start.absorb B.toList
    Z.V = compress iv B ∧ Z.content = [] ∧ Z.fill.toNat = 0 ∧ Z.total.toNat = 64 ∧ Z.st = Status.active := by
  intro Z
  obtain ⟨h1, h2, h3, h4, h5⟩ := absorb_spec X.start B.toList (by simp)
  have hl : B.toList.length = 64 := by simp
  have t0 : X.start.total.toNat = 0 := rfl
  rw [start_content, List.nil_append, hl] at h1 h2 h3
  rw [t0, hl] at h4
  refine ⟨?_, ?_, h3, h4, h5⟩
  · rw [h1, show 64 / 64 = 1 by rfl, chain_one, blockAt_toList]; rfl
  · rw [h2]; simp

theorem finalize_length (X : Context) : X.finalize.length = 32 := digestBytes_length _

theorem finish_eq (Y : HmacContext) : Y.finish = messageDigest (Y.opad.toList ++ finalDigest Y.inner) := by
  unfold HmacContext.finish
  rw [← absorb_append, finalize_absorb_start, finalize_eq_finalDigest]
  simp [finalize_length]

theorem hmac_eq (Y : HmacContext) (scr : Context) (key data : ByteString) (hk : key.length < 2 ^ 62)
    (hd : data.length < 2 ^ 62) :
    ((Y.start scr key).absorb data).finish = messageTag key data := by
  rw [finish_eq, ← finalize_eq_finalDigest]
  simp only [hmacAbsorb_opad, hmacAbsorb_inner, hmacStart_opad, hmacStart_inner]
  have hl : (padOf (keyBlock scr key) ipadByte).toList.length = 64 := by simp
  rw [← absorb_append, finalize_absorb_start _ _ (by rw [List.length_append, hl]; omega), pad_toList _ _ (by omega),
      pad_toList _ _ (by omega)]
  rfl

theorem start_view (X X' : Context) : X.start.view = X'.start.view := by
  simp [Context.view, Context.content, Context.isActive]

theorem consistent_iff_all (s : State) : s.consistent = true ↔ (∀ X ∈ s.ctx, X.consistent = true)
    ∧ (∀ Y ∈ s.hctx, Y.inner.consistent = true ∧ Y.outer.consistent = true) := by
  simp [State.consistent, List.all_eq_true]

/-- Views of contexts agree: enough for further absorption. -/
theorem absorbedTo_unique {X A B : Context} {data : ByteString} (ha : AbsorbedTo X data A) (hb : AbsorbedTo X data B) :
    A.view = B.view := by
  obtain ⟨a1, a2, a3, a4, a5⟩ := ha
  obtain ⟨b1, b2, b3, b4, b5⟩ := hb
  have e3 : A.fill = B.fill := by apply BitVec.eq_of_toNat_eq; rw [a3, b3]
  have e4 : A.total = B.total := by apply BitVec.eq_of_toNat_eq; rw [a4, b4]
  unfold Context.view Context.isActive
  rw [a1, a2, a5, b1, b2, b5, e3, e4]

theorem chain_split (V : HashState) (S D : ByteString) :
    chain (chain V S (S.length / 64)) (S.drop (64 * (S.length / 64)) ++ D)
        ((S.drop (64 * (S.length / 64)) ++ D).length / 64)
      = chain V (S ++ D) ((S ++ D).length / 64)
    ∧ (S.drop (64 * (S.length / 64)) ++ D).drop (64 * ((S.drop (64 * (S.length / 64)) ++ D).length / 64))
        = (S ++ D).drop (64 * ((S ++ D).length / 64))
    ∧ (S.drop (64 * (S.length / 64)) ++ D).length % 64 = (S ++ D).length % 64 := by
  have hq : 64 * (S.length / 64) ≤ S.length := Nat.mul_div_le _ _
  have hl : (S.drop (64 * (S.length / 64)) ++ D).length = (S ++ D).length - 64 * (S.length / 64) := by
    simp; omega
  have hl' : (S ++ D).length ≥ 64 * (S.length / 64) := by simp; omega
  have hdiv : (S ++ D).length / 64 = S.length / 64 + (S.drop (64 * (S.length / 64)) ++ D).length / 64 := by
    rw [hl]; omega
  have hd : (S ++ D).drop (64 * (S.length / 64))
      = S.drop (64 * (S.length / 64)) ++ D := List.drop_append_of_le_length hq
  refine ⟨?_, ?_, ?_⟩
  · rw [hdiv, chain_add, chain_append V hq, hd]
  · rw [hdiv, Nat.mul_add, ← List.drop_drop, hd]
  · rw [hl]; omega

theorem absorbedTo_trans {X A B : Context} {d e : ByteString} (ha : AbsorbedTo X d A)
    (hb : AbsorbedTo A e B) : AbsorbedTo X (d ++ e) B := by
  obtain ⟨a1, a2, a3, a4, a5⟩ := ha
  obtain ⟨b1, b2, b3, b4, b5⟩ := hb
  unfold AbsorbedTo
  rw [a1, a2] at b1
  rw [a2] at b2 b3
  obtain ⟨c1, c2, c3⟩ := chain_split X.V (X.content ++ d) e
  simp only [← List.append_assoc]
  refine ⟨b1.trans c1, b2.trans c2, b3.trans c3, ?_, b5.trans a5⟩
  rw [b4, a4, List.length_append]; omega

theorem consistent_iff (X : Context) : X.consistent = false ↔ (X.st = 3 ∨ (X.st = Status.active
    ∧ X.fill.toNat ≠ X.total.toNat % 64)) := by
  unfold Context.consistent Context.isActive
  by_cases h3 : X.st = 3
  · simp [h3]
  · by_cases h1 : X.st = Status.active
    · simp [h1]
    · have d1 : decide (X.st = Status.active) = false := decide_eq_false h1
      have d3 : decide (X.st ≠ 3) = true := decide_eq_true h3
      rw [d1, d3]; constructor
      · intro h; simp at h
      · rintro (h | ⟨h, -⟩)
        · exact (h3 h).elim
        · exact (h1 h).elim

theorem updated_consistent {X : Context} {data : ByteString} (n : Nat) (o : Owner) (hX : X.consistent = true)
    (h : X.total.toNat + data.length < 2 ^ 61) :
    (X.updated n o data).consistent = true := by
  obtain ⟨-, -, h3, h4, h5⟩ := updated_absorbedTo n o h
  by_contra hn
  rw [Bool.not_eq_true, consistent_iff, h3, h4, h5] at hn
  have hX' : ¬ X.consistent = false := by simp [hX]
  rw [consistent_iff] at hX'
  simp only [List.length_append, content_length] at hn
  rcases hn with h | ⟨h, h'⟩
  · exact hX' (.inl h)
  · refine hX' (.inr ⟨h, ?_⟩)
    intro he
    apply h'
    rw [he]; omega

theorem absorb_pad_consistent (X : Context) (B : Block) : (X.start.absorb B.toList).consistent = true := by
  obtain ⟨-, -, h3, h4, h5⟩ := absorb_pad X B
  by_contra hn
  rw [Bool.not_eq_true, consistent_iff, h3, h4, h5] at hn
  rcases hn with h | ⟨h, h'⟩
  · revert h; decide
  · omega

theorem view_iff (A B : Context) : A.view = B.view ↔ A.st = B.st ∧ (A.st = Status.active → A.V = B.V
    ∧ A.content = B.content ∧ A.fill = B.fill ∧ A.total = B.total) := by
  unfold Context.view Context.isActive
  by_cases h : A.st = Status.active
  · rw [decide_eq_true h]
    constructor
    · intro e
      simp only [if_true] at e
      injection e with e1 e2
      rw [← e1, decide_eq_true h] at e2
      simp only [if_true] at e2
      injection e2 with e2
      injection e2 with a e2
      injection e2 with b e2
      injection e2 with c d
      exact ⟨e1, fun _ => ⟨a, b, c, d⟩⟩
    · rintro ⟨e1, e2⟩
      obtain ⟨a, b, c, d⟩ := e2 h
      rw [← e1, decide_eq_true h, a, b, c, d]
  · rw [decide_eq_false h]
    constructor
    · intro e
      injection e with e1 e2
      exact ⟨e1, fun h' => (h h').elim⟩
    · rintro ⟨e1, -⟩
      rw [← e1, decide_eq_false h]
      rfl

theorem absorbed_view {A B A' B' : Context} {d : ByteString} (h : A.view = B.view) (ha : A.st = Status.active)
    (h1 : AbsorbedTo A d A') (h2 : AbsorbedTo B d B') : A'.view = B'.view := by
  obtain ⟨e, e'⟩ := (view_iff A B).mp h
  obtain ⟨a, b, c, t⟩ := e' ha
  have h3 : AbsorbedTo A d B' := by
    unfold AbsorbedTo at h2 ⊢
    rw [← a, ← b, ← t, ← e] at h2; exact h2
  exact absorbedTo_unique h1 h3

theorem updated_view {A B : Context} {d : ByteString} (n m : Nat) (o : Owner) (h : A.view = B.view)
    (ha : A.st = Status.active) (hb : A.total.toNat + d.length < 2^61) :
    (A.updated n o d).view = (B.updated m o d).view := by
  have := ((view_iff A B).mp h).2 ha
  exact absorbed_view h ha (updated_absorbedTo n o hb) (updated_absorbedTo m o (by rw [← this.2.2.2]; exact hb))

theorem finalDigest_view {A B : Context} (h : A.view = B.view)
    (hs : A.st = Status.active) : finalDigest A = finalDigest B := by
  unfold Context.view at h
  have hst : A.st = B.st := by injection h
  have ha : A.isActive = true := by simp [Context.isActive, hs]
  have hb : B.isActive = true := by simp [Context.isActive, ← hst, hs]
  rw [ha, hb] at h
  simp only [if_true] at h
  injection h with _ h
  injection h with h
  injection h with h1 h
  injection h with h2 h
  injection h with h3 h4
  unfold finalDigest
  rw [h1, h2, h3, h4]

theorem finalDigest_of_absorbed {X A : Context} {M : ByteString} (h : AbsorbedTo X.start M A)
    (hM : M.length < 2 ^ 64) : finalDigest A = messageDigest M := by
  have h2 := absorb_spec X.start M (by simpa using hM)
  rw [finalDigest_view (absorbedTo_unique h h2) (h.2.2.2.2), ← finalize_eq_finalDigest, finalize_absorb_start _ _ hM]

theorem finalize_view {A B : Context} (h : A.view = B.view) (ha : A.st = Status.active) : A.finalize = B.finalize := by
  rw [finalize_eq_finalDigest, finalize_eq_finalDigest, finalDigest_view h ha]

theorem consistent_view {A B : Context} (h : A.view = B.view) : A.consistent = B.consistent := by
  obtain ⟨e, e'⟩ := (view_iff A B).mp h
  unfold Context.consistent Context.isActive
  rw [← e]
  by_cases ha : A.st = Status.active
  · obtain ⟨a, b, c, t⟩ := e' ha
    rw [c, t]
  · rw [decide_eq_false ha]; rfl

theorem hview_iff (A B : HmacContext) : A.view = B.view ↔ A.inner.view = B.inner.view ∧ A.outer.view = B.outer.view
    ∧ (A.inner.st = Status.active → A.opad = B.opad) := by
  unfold HmacContext.view Context.isActive
  constructor
  · intro h
    injection h with h1 h2 h3
    refine ⟨h1, h2, fun ha => ?_⟩
    have e := ((view_iff _ _).mp h1).1
    rw [← e, decide_eq_true ha] at h3
    simp only [if_true] at h3
    injection h3
  · rintro ⟨h1, h2, h3⟩
    have e := ((view_iff _ _).mp h1).1
    rw [h1, h2, ← e]
    by_cases ha : A.inner.st = Status.active
    · rw [h3 ha]
    · rw [decide_eq_false ha]; rfl

end Sys2Proof.Machine
end

