-- ==== Sys2Proof/Tests/Slice0.lean ====
section
/-! SUPPORT. The model's own tests: the checks of WellFormed, packets of the spec and the commands they are,
    single steps
against the spec's vectors (95_test_vectors.md), and a witness for the hypotheses of each obligation. -/

namespace Sys2Proof.Tests

set_option Elab.async false

open Sys2Proof Sys2Proof.Machine

/-! ### Small states -/

/-- A Context with this status, fill count and total, an all-`0x61` buffer, and the chaining value `V`. -/
def contextOf (V : HashState) (st : Status) (fill : BitVec 6) (total : BitVec 64) : Context where
  V := V
  buf := Vector.replicate 64 0x61
  fill := fill
  total := total
  st := st

/-- An HMAC slot with this inner Context and the pads of the key "key" (95_test_vectors.md case H3). -/
def hmacOf (inner : Context) : HmacContext where
  inner := inner
  outer := contextOf iv Status.uninit 0 0
  ipad := padOf (rightPadded [0x6b, 0x65, 0x79]) 0x36
  opad := padOf (rightPadded [0x6b, 0x65, 0x79]) 0x5c

/-- A state with these slots and this input. -/
def stateOf (ctx : List Context) (hctx : List HmacContext) (input : List HostEvent) : State where
  ctx := ctx
  hctx := hctx
  scr := contextOf iv Status.final 0 0
  hscr := hmacOf (contextOf iv Status.final 0 0)
  datapath := Datapath.blank
  input := input
  responses := []
  serial := 1

/-- An active Context with 3 buffered bytes. -/
def busy : Context := contextOf iv Status.active 3 3

/-- An active inner Context with 64 bytes counted. -/
def keyed : Context := contextOf iv Status.active 0 64

/-- Slot 0 active, slot 1 never initialised, HMAC slot 0 active. -/
def sample : State := stateOf [busy, contextOf iv Status.uninit 0 0] [hmacOf keyed] []

/-- `sample` with a host that sends this packet. -/
def sending (p : ByteString) : State := { sample with input := [.packet p] }

/-- A state the fatal assertion holds of. -/
def broken : State := stateOf [contextOf iv Status.active 3 4] [hmacOf keyed] []

/-- A Context one byte short of the length bound. -/
def nearBound : Context := contextOf iv Status.active 63 0x1fffffffffffffff

/-- The response packets of an outcome. -/
def answers (r : Result) : Option (List ByteString) :=
  match r with
  | .next t => some (t.responses.map Response.packet)
  | .fault _ => none
  | .refused _ => none

/-- The statuses of the plain slots and of the inner Contexts after an outcome. -/
def statuses (r : Result) : Option (List Status × List Status) :=
  match r with
  | .next t => some (t.ctx.map Context.st, t.hctx.map fun Y => Y.inner.st)
  | .fault _ => none
  | .refused _ => none

/-! ### WellFormed: a term each check refuses, and one it accepts -/

theorem test_wellFormed_refuses_negative_length :
    (Instr.update 0 0xffffffff [0x61, 0x62, 0x63]).formError = some .negativeLength := by decide

theorem test_wellFormed_refuses_wrong_length :
    (Instr.hash 3 [0x61, 0x62]).formError = some .lengthMismatch := by decide

theorem test_wellFormed_refuses_second_string :
    (Instr.hmac 0 2 [] [0x61]).formError = some .lengthMismatch := by decide

theorem test_wellFormed_sign_before_length :
    (Instr.hmac 5 0x80000000 [] []).formError = some .negativeLength := by decide

theorem test_wellFormed_accepts : (Instr.hmac 1 2 [0x6b] [0x61, 0x62]).WellFormed := by decide

/-! ### Decoding: packets of 95_test_vectors.md sections 4, 8.1 and 8.2, byte for byte -/

theorem test_decode_compress : decode ([0x10, 0x00, 0x00, 0x00] ++ digestBytes iv ++ List.replicate 64 0x00)
    = .ok (.compress iv (Vector.replicate 64 0)) := by decide +kernel

theorem test_decode_compress_first_words : digestBytes iv
    = [0x73, 0x80, 0x16, 0x6f, 0x49, 0x14, 0xb2, 0xb9, 0x17, 0x24, 0x42, 0xd7, 0xda, 0x8a, 0x06, 0x00,
       0xa9, 0x6f, 0x30, 0xbc, 0x16, 0x31, 0x38, 0xaa, 0xe3, 0x8d, 0xee, 0x4d, 0xb0, 0xfb, 0x0e, 0x4e] := by
  decide +kernel

theorem test_decode_init : decode [0x20, 0x00, 0x00, 0x00] = .ok (.init 0) := by decide +kernel

theorem test_decode_update_empty :
    decode [0x30, 0x00, 0x00, 0x00, 0x00, 0x00, 0x00, 0x00] = .ok (.update 0 0 []) := by decide +kernel

theorem test_decode_finalize : decode [0x40, 0x00, 0x00, 0x00] = .ok (.finalize 0) := by decide +kernel

theorem test_decode_hash_empty :
    decode [0x50, 0x00, 0x00, 0x00, 0x00, 0x00, 0x00, 0x00] = .ok (.hash 0 []) := by decide +kernel

theorem test_decode_hmacInit_empty :
    decode [0x60, 0x00, 0x00, 0x00, 0x00, 0x00, 0x00, 0x00] = .ok (.hmacInit 0 0 []) := by decide +kernel

theorem test_decode_hmacUpdate : decode [0x70, 0x00, 0x00, 0x00, 0x00, 0x00, 0x00, 0x03, 0x61, 0x62, 0x63]
    = .ok (.hmacUpdate 0 3 [0x61, 0x62, 0x63]) := by decide +kernel

theorem test_decode_hmacFinish : decode [0x80, 0x00, 0x00, 0x00] = .ok (.hmacFinish 0) := by decide +kernel

theorem test_decode_hmac_empty_key :
    decode [0x90, 0x00, 0x00, 0x00, 0x00, 0x00, 0x00, 0x00, 0x00, 0x00, 0x00, 0x03, 0x61, 0x62, 0x63]
      = .ok (.hmac 0 3 [] [0x61, 0x62, 0x63]) := by decide +kernel

theorem test_decode_short : decode [0x20, 0x00, 0x00] = .error .shortPacket := by decide +kernel

theorem test_decode_reserved_opcodes : decode [0x00, 0x00, 0x00, 0x00] = .error .reservedOpcode
    ∧ decode [0xa0, 0x00, 0x00, 0x00, 0x00, 0x00, 0x00, 0x00] = .error .reservedOpcode
    ∧ decode [0xf0, 0x00, 0x00, 0x00] = .error .reservedOpcode := by decide +kernel

theorem test_decode_reserved_bits : decode [0x20, 0x00, 0x00, 0x01] = .error .reservedBits
    ∧ decode [0x20, 0x08, 0x00, 0x00] = .error .reservedBits := by decide +kernel

theorem test_decode_slot_not_zero :
    decode [0x50, 0x10, 0x00, 0x00, 0x00, 0x00, 0x00, 0x00] = .error .slotNotZero := by decide +kernel

theorem test_decode_missing_length : decode [0x30, 0x00, 0x00, 0x00, 0x00, 0x00] = .error .missingLength
    ∧ decode [0x90, 0x00, 0x00, 0x00, 0x00, 0x00, 0x00, 0x03] = .error .missingLength := by decide +kernel

theorem test_decode_negative_length :
    decode [0x30, 0x00, 0x00, 0x00, 0x80, 0x00, 0x00, 0x00] = .error .negativeLength
    ∧ decode [0x90, 0x00, 0x00, 0x00, 0x00, 0x00, 0x00, 0x03, 0xff, 0xff, 0xff, 0xff, 0x6b, 0x65, 0x79]
      = .error .negativeLength := by decide +kernel

theorem test_decode_wrong_length :
    decode [0x30, 0x00, 0x00, 0x00, 0x00, 0x00, 0x00, 0x03, 0x61, 0x62] = .error .wrongLength
    ∧ decode [0x30, 0x00, 0x00, 0x00, 0x00, 0x00, 0x00, 0x03, 0x61, 0x62, 0x63, 0x64] = .error .wrongLength
    ∧ decode [0x20, 0x00, 0x00, 0x00, 0x00] = .error .wrongLength
    ∧ decode [0x10, 0x00, 0x00, 0x00] = .error .wrongLength := by decide +kernel

theorem test_encode_update : encode (.update 1 3 [0x61, 0x62, 0x63])
    = [0x30, 0x10, 0x00, 0x00, 0x00, 0x00, 0x00, 0x03, 0x61, 0x62, 0x63] := by decide +kernel

theorem test_decodeTableWord : decodeTableWord 32 0x20100000 = some (.init 1)
    ∧ decodeTableWord 32 0x50000000 = some (.hash 0 []) ∧ decodeTableWord 32 0xa0000000 = none := by decide +kernel

theorem test_withFetchWord_runs : statuses (step (State.reset.withFetchWord 32 0x20100000))
    = some ([Status.uninit, Status.active], [Status.uninit]) := by decide +kernel

/-! ### Assembler text: 95_test_vectors.md sections 8.1 and 9 -/

/-- The line `UPDATE 1, "abc"` of section 8.1 and its packet. -/
theorem test_line_update :
    (Line.update 1 ⟨none, ⟨.inl ['a', 'b', 'c'], none⟩⟩).packet
      = [0x30, 0x10, 0x00, 0x00, 0x00, 0x00, 0x00, 0x03, 0x61, 0x62, 0x63]
    ∧ String.ofList (Line.update 1 ⟨none, ⟨.inl ['a', 'b', 'c'], none⟩⟩).text = "UPDATE 1, \"abc\"" := by
  decide +kernel

/-- 30_encoding.md R104: hexadecimal strings, repetition, a written length (section 8.2 row 19). -/
theorem test_line_forms :
    (Line.hmacInit 0 ⟨some (-1), ⟨.inr [0x61, 0x62, 0x63], none⟩⟩).packet
      = [0x60, 0x00, 0x00, 0x00, 0xff, 0xff, 0xff, 0xff, 0x61, 0x62, 0x63]
    ∧ String.ofList (Line.hash ⟨some (-1), ⟨.inr [0x61, 0x6f], some 16⟩⟩).text = "HASH LEN=-1 x\"616f\"*16" := by
  decide +kernel

/-- 30_encoding.md R104: the text of the responses. -/
theorem test_response_text : String.ofList (Response.ok (digestBytes iv)).text
      = "-> OK 7380166f 4914b2b9 172442d7 da8a0600 a96f30bc 163138aa e38dee4d b0fb0e4e"
    ∧ String.ofList (Response.ok []).text = "-> OK" := by decide +kernel

/-! ### Primitives: 95_test_vectors.md section 3 -/

theorem test_p0_p1 : p0 0x00000001 = 0x00020201 ∧ p1 0x00000001 = 0x00808001
    ∧ p0 0xdeadbeef = 0xf80fdc09 ∧ p1 0xdeadbeef = 0x76350766 := by decide

theorem test_ff_gg : ff 15 0x0f0f3355 0x00ff55aa 0x5a5ac3c3 = 0x55aaa53c
    ∧ ff 16 0x0f0f3355 0x00ff55aa 0x5a5ac3c3 = 0x0a5f53c3
    ∧ gg 15 0x0f0f3355 0x00ff55aa 0x5a5ac3c3 = 0x55aaa53c
    ∧ gg 16 0x0f0f3355 0x00ff55aa 0x5a5ac3c3 = 0x505fd182 := by decide

/-! ### The commands, one step each -/

/-- 41_streaming_hasher.md R181: INIT is legal in every status. -/
theorem test_init_any_status : statuses (exec (.init 0) sample) = some ([Status.active, Status.uninit], [Status.active])
    ∧ statuses (exec (.init 1) sample) = some ([Status.active, Status.active], [Status.active]) := by decide +kernel

/-- 95_test_vectors.md section 8.2 row 12: INIT 2 with two slots. -/
theorem test_init_out_of_range : answers (exec (.init 2) sample) = some [[0x01]] := by decide +kernel

/-- 95_test_vectors.md section 8.2 rows 39 and 17. -/
theorem test_update_rejected : answers (exec (.update 1 3 [0x61, 0x62, 0x63]) sample) = some [[0x01]]
    ∧ answers (exec (.update 0 0xffffffff []) sample) = some [[0x01]] := by decide +kernel

/-- 41_streaming_hasher.md R182: four bytes are buffered and counted. -/
theorem test_update_counts :
    (match exec (.update 0 4 [0x01, 0x02, 0x03, 0x04]) sample with
      | .next t => t.ctx[0]?.map fun X => (X.content, X.fill, X.total)
      | .fault _ => none
      | .refused _ => none) = some ([0x61, 0x61, 0x61, 0x01, 0x02, 0x03, 0x04], 7, 7) := by decide +kernel

/-- 95_test_vectors.md section 8.2 row 15: HMAC_INIT 1 with one HMAC slot. -/
theorem test_hmacInit_out_of_range : answers (exec (.hmacInit 1 3 [0x6b, 0x65, 0x79]) sample) = some [[0x01]] := by
  decide +kernel

/-- 42_hmac.md R223: bytes are counted by the inner Context only. -/
theorem test_hmacUpdate_counts :
    (match exec (.hmacUpdate 0 2 [0x01, 0x02]) sample with
      | .next t => t.hctx[0]?.map fun Y => (Y.inner.content, Y.inner.total, Y.outer.st)
      | .fault _ => none
      | .refused _ => none) = some ([0x01, 0x02], 66, Status.uninit) := by decide +kernel

/-- 42_hmac.md R224: both Contexts become `ST_FINAL`. -/
theorem test_hmacFinish_statuses :
    (match exec (.hmacFinish 0) sample with
      | .next t => t.hctx.map fun Y => (Y.inner.st, Y.outer.st)
      | .fault _ => []
      | .refused _ => []) = [(Status.final, Status.final)] := by decide +kernel

/-- 60_exceptions.md R255: a violated assertion is a fault. -/
theorem test_fatalAssert : exec (.init 0) broken = .fault .fatalAssert := by rfl

/-- 60_exceptions.md R265, R256: at the bound one byte is refused, but a negative length is INVALID_INPUT. -/
theorem test_bound :
    (match exec (.update 0 1 [0x61]) (stateOf [nearBound] [hmacOf keyed] []) with
      | .next _ => none
      | .fault _ => none
      | .refused r => some r) = some Refusal.lengthOutOfScope
    ∧ answers (exec (.update 0 0xffffffff [0x61]) (stateOf [nearBound] [hmacOf keyed] [])) = some [[0x01]] := by
  decide +kernel

/-- 70_reset_and_hazards.md R281: a reset empties every slot and answers nothing. -/
theorem test_reset : statuses (step { sample with input := [.reset] })
      = some ([Status.uninit, Status.uninit], [Status.uninit])
    ∧ answers (step { sample with input := [.reset] }) = some [] := by decide +kernel

/-! ### Witnesses: for each obligation with hypotheses, a state and operands that meet them together,
    at the ends of their
ranges -/

/-- 65 key bytes: the shortest key that is hashed first. -/
def longKey : ByteString := List.replicate 65 0xaa

theorem witness_RotlMovesBitsCircularly : (0 : Nat) < 32 ∧ (31 : Nat) < 32 := by decide

theorem witness_PermutationsAreLinear : (0 : Nat) < 32 ∧ (31 : Nat) < 32 := by decide

theorem witness_BooleanFunctionsSplitAtRound16 :
    ((15 : Nat) ≤ 63 ∧ (15 : Nat) ≤ 15) ∧ ((16 : Nat) ≤ 63 ∧ (16 : Nat) ≤ 16 ∧ (31 : Nat) < 32) ∧ (63 : Nat) ≤ 63 := by
  decide

theorem witness_RoundConstantTable :
    ((16 : Nat) ≤ 16 ∧ (16 : Nat) ≤ 31) ∧ ((16 : Nat) ≤ 31 ∧ (31 : Nat) ≤ 31)
    ∧ ((14 : Nat) < 63 ∧ (14 : Nat) ≠ 15) ∧ ((62 : Nat) < 63 ∧ (62 : Nat) ≠ 15) := by decide

theorem witness_ScheduleFollowsRecurrence :
    (15 : Nat) < 16 ∧ ((16 : Nat) ≤ 16 ∧ (16 : Nat) ≤ 67) ∧ ((16 : Nat) ≤ 67 ∧ (67 : Nat) ≤ 67) ∧ (63 : Nat) < 64 := by
  decide

theorem witness_RoundsFollowEquations : (0 : Nat) < 64 ∧ (63 : Nat) < 64 := by decide

theorem witness_BigEndianReadAndWrite : (0 : Nat) < 4 ∧ (3 : Nat) < 4 ∧ (7 : Nat) < 8 := by decide

theorem witness_LengthOperandIsSigned :
    lengthLegal 0 [] = true ∧ (0x7fffffff : BitVec 32).toNat < 2 ^ 31 ∧ ¬ (0x80000000 : BitVec 32).toNat < 2 ^ 31 := by
  decide +kernel

theorem witness_DecodeOfEncodeIsIdentity :
    (Instr.hmac 0 0 [] []).WellFormed ∧ (Instr.init 255).WellFormed
    ∧ (Instr.update 0 3 [0x61, 0x62, 0x63]).WellFormed := by decide +kernel

theorem witness_EncodeOfDecodeIsIdentity : decode [0x2f, 0xf0, 0x00, 0x00] = .ok (.init 255) := by decide +kernel

theorem witness_HeaderSelectsByMatchAndMask :
    (Opcode.init, (0x20000000 : Word), (0xF00FFFFF : Word)) ∈ opcodeMap
    ∧ decodeHeader 0x2ff00000 = .ok (.init, 255) := by decide +kernel

theorem witness_AssemblerLinesStandForPackets :
    (StringSpelling.mk (.inr [0x00]) (some 64)).bytes.length = 64
    ∧ ((LengthSpelling.mk none ⟨.inl ['a'], none⟩).len = none
      ∧ Sendable (LengthSpelling.mk none ⟨.inl ['a'], none⟩).string.bytes)
    ∧ ((-2 ^ 31 : Int) ≤ -1 ∧ (-1 : Int) < 2 ^ 31
      ∧ (-1 : Int) ≠ (LengthSpelling.mk (some (-1)) ⟨.inl ['a'], none⟩).string.bytes.length) := by
  unfold Sendable
  decide +kernel

theorem witness_StepRunsDecodedCommand :
    (sending [0x20, 0x00, 0x00, 0x00]).input = .packet [0x20, 0x00, 0x00, 0x00] :: []
    ∧ decode [0x20, 0x00, 0x00, 0x00] = .ok (.init 0) := by decide +kernel

theorem witness_StepRejectsIllegalPacket :
    (sending []).consistent = true ∧ (sending []).input = .packet [] :: [] ∧ PacketIllegal [] :=
  ⟨by decide +kernel, rfl, .inl (by decide)⟩

theorem witness_StepTakesReset : ({ broken with input := [.reset] } : State).input = .reset :: [] := rfl

theorem witness_IdleStepChangesNothing : sample.input = [] := rfl

theorem witness_AppendStoresOneByte :
    (contextOf iv Status.active 63 63).fill.toNat = 63 ∧ (contextOf iv Status.active 62 62).fill.toNat ≠ 63
    ∧ (0 : Nat) ≠ (contextOf iv Status.active 63 63).fill.toNat := by decide

theorem witness_CompressCompletes : sample.consistent = true := by decide +kernel

theorem witness_InitCompletes : sample.consistent = true ∧ (1 : BitVec 8).toNat < sample.ctx.length := by
  decide +kernel

theorem witness_UpdateCompletes :
    sample.consistent = true ∧ sample.ctx[(0 : BitVec 8).toNat]? = some busy ∧ busy.st = Status.active
    ∧ (3 : BitVec 32).toNat < 2 ^ 31 ∧ ([0x61, 0x62, 0x63] : ByteString).length = (3 : BitVec 32).toNat
    ∧ busy.total.toNat + ([0x61, 0x62, 0x63] : ByteString).length < 2 ^ 61
    ∧ busy.fill.toNat + ([0x61, 0x62, 0x63] : ByteString).length < 64 :=
  ⟨by decide +kernel, rfl, rfl, by decide, rfl, by decide, by decide⟩

theorem witness_UpdateCompletes_empty :
    ([] : ByteString) = [] ∧ (0 : BitVec 32).toNat < 2 ^ 31 ∧ ([] : ByteString).length = (0 : BitVec 32).toNat
    ∧ nearBound.st = Status.active ∧ nearBound.total.toNat + ([] : ByteString).length < 2 ^ 61
    ∧ (stateOf [nearBound] [hmacOf keyed] []).consistent = true
    ∧ (stateOf [nearBound] [hmacOf keyed] []).ctx[(0 : BitVec 8).toNat]? = some nearBound :=
  ⟨rfl, by decide, rfl, rfl, by decide +kernel, by decide +kernel, rfl⟩

theorem witness_FinalizeCompletes :
    sample.consistent = true ∧ sample.ctx[(0 : BitVec 8).toNat]? = some busy ∧ busy.st = Status.active :=
  ⟨by decide +kernel, rfl, rfl⟩

theorem witness_HashCompletes :
    sample.consistent = true ∧ (3 : BitVec 32).toNat < 2 ^ 31
    ∧ ([0x61, 0x62, 0x63] : ByteString).length = (3 : BitVec 32).toNat :=
  ⟨by decide +kernel, by decide, rfl⟩

theorem witness_HmacInitCompletes :
    sample.consistent = true ∧ sample.hctx[(0 : BitVec 8).toNat]? = some (hmacOf keyed)
    ∧ (3 : BitVec 32).toNat < 2 ^ 31 ∧ ([0x6b, 0x65, 0x79] : ByteString).length = (3 : BitVec 32).toNat
    ∧ ([0x6b, 0x65, 0x79] : ByteString).length ≤ 64 :=
  ⟨by decide +kernel, rfl, by decide, rfl, by decide⟩

theorem witness_HmacUpdateCompletes :
    sample.consistent = true ∧ sample.hctx[(0 : BitVec 8).toNat]? = some (hmacOf keyed)
    ∧ (hmacOf keyed).inner.st = Status.active ∧ (2 : BitVec 32).toNat < 2 ^ 31
    ∧ ([0x61, 0x62] : ByteString).length = (2 : BitVec 32).toNat
    ∧ (hmacOf keyed).inner.total.toNat + ([0x61, 0x62] : ByteString).length < 2 ^ 61
    ∧ (hmacOf keyed).inner.fill.toNat + ([0x61, 0x62] : ByteString).length < 64 :=
  ⟨by decide +kernel, rfl, rfl, by decide, rfl, by decide, by decide⟩

theorem witness_HmacFinishCompletes :
    sample.consistent = true ∧ sample.hctx[(0 : BitVec 8).toNat]? = some (hmacOf keyed)
    ∧ (hmacOf keyed).inner.st = Status.active :=
  ⟨by decide +kernel, rfl, rfl⟩

theorem witness_HmacCompletes :
    sample.consistent = true ∧ (1 : BitVec 32).toNat < 2 ^ 31 ∧ ([0x6b] : ByteString).length = (1 : BitVec 32).toNat
    ∧ (0 : BitVec 32).toNat < 2 ^ 31 ∧ ([] : ByteString).length = (0 : BitVec 32).toNat
    ∧ ([0x6b] : ByteString).length ≤ 64 :=
  ⟨by decide +kernel, by decide, rfl, by decide, rfl, by decide⟩

theorem witness_ChunkedUpdatesEqualOne :
    sample.consistent = true ∧ sample.ctx[(0 : BitVec 8).toNat]? = some busy ∧ busy.st = Status.active
    ∧ Sendable ([[0x61], [], [0x62, 0x63]] : List ByteString).flatten
    ∧ busy.total.toNat + ([[0x61], [], [0x62, 0x63]] : List ByteString).flatten.length < 2 ^ 61 :=
  ⟨by decide +kernel, rfl, rfl, by unfold Sendable; decide, by decide⟩

theorem witness_StreamedDigest :
    sample.consistent = true ∧ (1 : BitVec 8).toNat < sample.ctx.length
    ∧ (∀ M ∈ ([[0x61], [0x62, 0x63]] : List ByteString), Sendable M)
    ∧ ([[0x61], [0x62, 0x63]] : List ByteString).flatten.length < 2 ^ 61 :=
  ⟨by decide +kernel, by decide, by unfold Sendable; decide, by decide⟩

theorem witness_StreamedTag :
    sample.consistent = true ∧ (0 : BitVec 8).toNat < sample.hctx.length ∧ Sendable [0x6b, 0x65, 0x79]
    ∧ (∀ M ∈ ([[0x61], [0x62, 0x63]] : List ByteString), Sendable M)
    ∧ 64 + ([[0x61], [0x62, 0x63]] : List ByteString).flatten.length < 2 ^ 61 :=
  ⟨by decide +kernel, by decide, by unfold Sendable; decide, by unfold Sendable; decide, by decide⟩

theorem witness_CompositesEqualTheirSequences :
    sample.consistent = true ∧ (1 : BitVec 8).toNat < sample.ctx.length ∧ (0 : BitVec 8).toNat < sample.hctx.length
    ∧ Sendable [0x6b] ∧ Sendable [] :=
  ⟨by decide +kernel, by decide, by decide, by unfold Sendable; decide, by unfold Sendable; decide⟩

theorem witness_LongKeyEquivalence : ∃ u d,
    (65 : BitVec 32).toNat < 2 ^ 31 ∧ longKey.length = (65 : BitVec 32).toNat ∧ (0 : BitVec 32).toNat < 2 ^ 31
    ∧ ([] : ByteString).length = (0 : BitVec 32).toNat ∧ 64 < longKey.length
    ∧ exec (.hash 65 longKey) sample = .next u ∧ Answered sample u d ∧ (0 : BitVec 8).toNat < sample.hctx.length :=
  ⟨_, sample.scr.hash longKey, by decide, by decide, by decide, rfl, by decide,
    exec_hash (by decide +kernel) (by decide +kernel), rfl, by decide⟩

theorem witness_InvalidInputExactlyWhenCaused :
    sample.consistent = true ∧ InvalidCause sample (.init 2) ∧ ¬ InvalidCause sample (.init 1)
    ∧ InvalidCause sample (.finalize 1) :=
  ⟨by decide +kernel, by show 2 ≤ 2; decide, by show ¬ 2 ≤ 1; decide,
    .inr ⟨contextOf iv Status.uninit 0 0, rfl, by decide⟩⟩

/-- Rows 6 and 7 (lengths no packet carries) and row 9 of the table of causes, and their complements. -/
theorem witness_InvalidInputExactlyWhenCaused_rows_6_7_9 :
    InvalidCause sample (.update 0 0x80000000 []) ∧ InvalidCause sample (.hash 0xffffffff [])
    ∧ InvalidCause sample (.hmacInit 0 3 [0x6b]) ∧ ¬ InvalidCause sample (.hash 1 [0x61])
    ∧ (stateOf [busy] [hmacOf (contextOf iv Status.final 0 64)] []).consistent = true
    ∧ InvalidCause (stateOf [busy] [hmacOf (contextOf iv Status.final 0 64)] []) (.hmacFinish 0) :=
  ⟨.inr (.inl (.inl (by decide))), .inl (by decide), .inr (.inr (by decide)),
    fun h => h.elim (by decide) (by decide), by decide +kernel, .inr ⟨_, rfl, by decide⟩⟩

theorem witness_RefusedExactlyBeyondScope :
    (stateOf [nearBound] [hmacOf keyed] []).consistent = true
    ∧ OutOfScope (stateOf [nearBound] [hmacOf keyed] []) (.update 0 1 [0x61])
    ∧ ¬ OutOfScope sample (.update 0 1 [0x61]) := by
  refine ⟨by decide +kernel, ⟨nearBound, rfl, by decide +kernel⟩, ?_⟩
  rintro ⟨X, hX, h⟩
  obtain rfl : busy = X := by simpa [sample, stateOf] using hX
  exact absurd h (by decide)

/-- HMAC_UPDATE at the bound, for the same statement. -/
theorem witness_RefusedExactlyBeyondScope_hmac :
    (stateOf [busy] [hmacOf nearBound] []).consistent = true
    ∧ OutOfScope (stateOf [busy] [hmacOf nearBound] []) (.hmacUpdate 0 1 [0x61])
    ∧ ¬ InvalidCause (stateOf [busy] [hmacOf nearBound] []) (.hmacUpdate 0 1 [0x61]) := by
  refine ⟨by decide +kernel, ⟨hmacOf nearBound, rfl, by decide +kernel⟩, ?_⟩
  rintro (h | h | ⟨Y, hY, h⟩)
  · exact absurd h (by decide)
  · exact h.elim (by decide) (by decide)
  · obtain rfl : hmacOf nearBound = Y := by simpa [stateOf] using hY
    exact h rfl

/-- The two corners of assumption log 9 and 14: an empty UPDATE on a total at the bound, and a length no packet carries. -/
theorem witness_RefusedExactlyBeyondScope_corners :
    (stateOf [contextOf iv Status.active 0 0x2000000000000000] [hmacOf keyed] []).consistent = true
    ∧ OutOfScope (stateOf [contextOf iv Status.active 0 0x2000000000000000] [hmacOf keyed] []) (.update 0 0 [])
    ∧ OutOfScope (stateOf [nearBound] [hmacOf keyed] []) (.update 0 0xffffffff [0x61])
    ∧ InvalidCause (stateOf [nearBound] [hmacOf keyed] []) (.update 0 0xffffffff [0x61]) :=
  ⟨by decide +kernel, ⟨_, rfl, by decide +kernel⟩, ⟨nearBound, rfl, by decide +kernel⟩, .inr (.inl (.inl (by decide)))⟩

theorem witness_FaultExactlyOnViolatedAssertion :
    broken.consistent = false ∧ contextOf iv Status.active 3 4 ∈ broken.ctx := by
  refine ⟨by decide +kernel, List.mem_cons_self⟩

theorem witness_AdmittedCommandAnswersOk :
    sample.consistent = true ∧ ¬ InvalidCause sample (.init 0) ∧ ¬ OutOfScope sample (.init 0) :=
  ⟨by decide +kernel, by show ¬ 2 ≤ 0; decide, fun h => h⟩

theorem witness_OtherSlotsUntouched : ∃ t, exec (.init 0) sample = .next t ∧ plainSlotOf (.init 0) ≠ some 1
    ∧ hmacSlotOf (.init 0) ≠ some 0 :=
  ⟨_, exec_init (X := busy) (by decide +kernel) rfl, by decide, by decide⟩

theorem witness_StatusTransitions : ∃ t X', exec (.finalize 0) sample = .next t ∧ sample.ctx[0]? = some busy
    ∧ t.ctx[0]? = some X' ∧ X'.st = Status.final :=
  ⟨_, _, exec_finalize (X := busy) (by decide +kernel) rfl rfl, rfl, rfl, rfl⟩

theorem witness_StatusTransitions_hmac : ∃ t Y', exec (.hmacFinish 0) sample = .next t
    ∧ sample.hctx[0]? = some (hmacOf keyed) ∧ t.hctx[0]? = some Y' ∧ Y'.outer.st = Status.final :=
  ⟨_, _, exec_hmacFinish (Y := hmacOf keyed) (by decide +kernel) rfl rfl, rfl, rfl, rfl⟩

theorem witness_OneResponsePerPacket : ∃ t, (sending [0x00]).input = .packet [0x00] :: []
    ∧ step (sending [0x00]) = .next t :=
  ⟨_, rfl, rfl⟩

theorem witness_EarlierResponsesAreNeverRead : ∃ t, exec (.init 2) sample = .next t := ⟨_, rfl⟩

theorem witness_InitTwiceEqualsOnce : sample.consistent = true ∧ (0 : BitVec 8).toNat < sample.ctx.length := by
  decide +kernel

/-- `sending p` meets the invariant. -/
theorem sending_inv (p : ByteString) : (sending p).Inv :=
  ⟨by show 1 ≤ 2 ∧ 2 ≤ 256; decide, by show 1 ≤ 1 ∧ 1 ≤ 256; decide, by rfl, by rfl, rfl⟩

theorem witness_StepKeepsInvariant : ∃ t, (sending [0x00]).Inv ∧ step (sending [0x00]) = .next t :=
  ⟨_, sending_inv _, rfl⟩

theorem witness_InvariantStatesNeverFault : (sending [0x20, 0x00, 0x00, 0x00]).Inv := sending_inv _

theorem witness_RunsFromResetNeverFault : (1 : Nat) ≤ 1 ∧ (1 : Nat) ≤ 256 ∧ (1 : Nat) ≤ 256 ∧ (256 : Nat) ≤ 256 := by
  decide

theorem witness_HiddenStateIsUnobservable :
    sample.view = ({ sample with scr := busy, serial := 9 } : State).view
        ∧ sample ≠ { sample with scr := busy, serial := 9 } :=
  ⟨rfl, fun h => absurd (congrArg State.serial h) (by decide)⟩

theorem witness_InterleavedPlainSlots : ∃ t, execAll [.init 0, .init 1] sample = .next t := ⟨_, rfl⟩

theorem witness_InterleavedHmacSlots : ∃ t, execAll [.init 0, .hmacUpdate 0 0 []] sample = .next t := ⟨_, rfl⟩

theorem witness_CompressionCounts :
    sample.ctx[(0 : BitVec 8).toNat]? = some busy ∧ sample.hctx[(0 : BitVec 8).toNat]? = some (hmacOf keyed)
    ∧ 64 < longKey.length ∧ ¬ 64 < ([] : ByteString).length :=
  ⟨rfl, rfl, by decide, by decide⟩

/-! ### Whole commands against the spec's vectors, the costly ones -/

/-- 95_test_vectors.md section 4: `IV` and the block `00 01 .. 3f`. -/
theorem test_compress_answers :
    answers (exec (.compress iv (Vector.ofFn fun i => BitVec.ofNat 8 i.val)) sample)
      = some [0x00 :: [0x96, 0xa6, 0x0e, 0xc7, 0x1e, 0x7e, 0xc7, 0xa7, 0x89, 0x0a, 0x07, 0xdc, 0xbe, 0xf2, 0xae, 0xa6,
          0x9c, 0xf8, 0x93, 0x6b, 0xd3, 0xf6, 0xd0, 0x7f, 0x47, 0x59, 0x7d, 0x30, 0x97, 0xdb, 0x3c, 0xcb]] := by
  decide +kernel

/-- 95_test_vectors.md section 5, n = 3: the digest of "aaa". -/
theorem test_finalize_three_bytes : answers (exec (.finalize 0) sample)
    = some [0x00 :: [0x8d, 0x83, 0xc7, 0xaf, 0x17, 0xf5, 0x44, 0xdf, 0xfb, 0x98, 0x9f, 0x53, 0xcd, 0x6a, 0xaf, 0xdc,
        0x2e, 0xda, 0x6c, 0xa5, 0xea, 0x7f, 0xef, 0x3d, 0xd7, 0xb2, 0xf0, 0xee, 0x82, 0x30, 0x66, 0x0d]] := by
  decide +kernel

/-- 95_test_vectors.md section 5, n = 0: the digest of the empty message. -/
theorem test_hash_empty : answers (exec (.hash 0 []) State.reset)
    = some [0x00 :: [0x1a, 0xb2, 0x1d, 0x83, 0x55, 0xcf, 0xa1, 0x7f, 0x8e, 0x61, 0x19, 0x48, 0x31, 0xe8, 0x1a, 0x8f,
        0x22, 0xbe, 0xc8, 0xc7, 0x28, 0xfe, 0xfb, 0x74, 0x7e, 0xd0, 0x35, 0xeb, 0x50, 0x82, 0xaa, 0x2b]] := by
  decide +kernel

/-- 95_test_vectors.md section 7, case H2: the inner chaining value after HMAC_INIT with the key "key". -/
theorem test_hmacInit_inner :
    (match exec (.hmacInit 0 3 [0x6b, 0x65, 0x79]) sample with
      | .next t => t.hctx[0]?.map fun Y => (Y.inner.V, Y.inner.fill, Y.inner.total, Y.inner.st, Y.outer.st)
      | .fault _ => none
      | .refused _ => none)
      = some (#v[0x7c20f80a, 0x3499adcf, 0x853845b3, 0x5442c1fc, 0xa923b020, 0xa99dc5ce, 0x0d4e0cd6, 0xd126dd81],
          0, 64, Status.active, Status.uninit) := by decide +kernel

/-- 95_test_vectors.md section 7, case H2: the tag of "abc" under the key "key". -/
theorem test_hmac_tag : answers (exec (.hmac 3 3 [0x6b, 0x65, 0x79] [0x61, 0x62, 0x63]) State.reset)
    = some [0x00 :: [0x28, 0xe6, 0x32, 0x56, 0xe7, 0xc5, 0xa0, 0x87, 0xb1, 0xf0, 0x73, 0x26, 0x5d, 0xc5, 0x30, 0x92,
        0x16, 0x3f, 0x7b, 0x82, 0x72, 0x97, 0x35, 0xd0, 0x6f, 0x28, 0xf1, 0x0a, 0xf9, 0xd5, 0x23, 0x93]] := by
  decide +kernel

end Sys2Proof.Tests
end

section
/-! PROOF. The invariant after reset, over any legal numbers of slots (00_scope.md R5; 70_reset_and_hazards.md R281). -/

namespace Sys2Proof.Machine

/-- The bounds on `fill` and `total` bind only an active Context, so an `ST_UNINIT` one is well kept whatever they hold
(10_state.md R26, R43). -/
theorem wellKept_of_uninit {X : Context} (h : X.st = Status.uninit) : X.wellKept = true := by
  have inactive : X.isActive = false := by simp [Context.isActive, h]
  have consistent : X.consistent = true := by simp [Context.consistent, inactive, h]
  simp [Context.wellKept, inactive, consistent]

/-- An HMAC slot is well kept whatever its other fields hold while both its Contexts are `ST_UNINIT` (10_state.md
R33, R43). -/
theorem hmacWellKept_of_uninit {Y : HmacContext} (hinner : Y.inner.st = Status.uninit)
    (houter : Y.outer.st = Status.uninit) : Y.wellKept = true := by
  have inactive : Y.inner.isActive = false := by simp [Context.isActive, hinner]
  simp [HmacContext.wellKept, wellKept_of_uninit hinner, inactive, hinner, houter]

theorem afterReset_ctxKept (nctx nhctx n : Nat) (input : List HostEvent) (responses : List Response) :
    (State.afterReset nctx nhctx n input responses).ctx.all Context.wellKept = true := by
  rw [afterReset_ctx, List.all_map, List.all_eq_true]
  intro c _
  exact wellKept_of_uninit (unspecified_st n (.ctx c) Status.uninit)

theorem afterReset_hctxKept (nctx nhctx n : Nat) (input : List HostEvent) (responses : List Response) :
    (State.afterReset nctx nhctx n input responses).hctx.all HmacContext.wellKept = true := by
  rw [afterReset_hctx, List.all_map, List.all_eq_true]
  intro h _
  exact hmacWellKept_of_uninit (unspecified_st n (.inner h) Status.uninit) (unspecified_st n (.outer h) Status.uninit)

/-- Reset establishes the invariant over every legal number of slots, given that the responses the host already has are
of a legal length: reset adds none (70_reset_and_hazards.md R281). -/
theorem afterReset_inv {nctx nhctx : Nat} {responses : List Response} (n : Nat) (input : List HostEvent)
    (hctx : 1 ≤ nctx ∧ nctx ≤ 256) (hhctx : 1 ≤ nhctx ∧ nhctx ≤ 256)
    (hresponses : responses.all Response.wellShaped = true) :
    (State.afterReset nctx nhctx n input responses).Inv where
  ctxCount := by simpa using hctx
  hctxCount := by simpa using hhctx
  ctxKept := afterReset_ctxKept nctx nhctx n input responses
  hctxKept := afterReset_hctxKept nctx nhctx n input responses
  shaped := by simpa using hresponses

/-- Settles O46: the default numbers of slots are legal, and the host has received nothing. -/
theorem resetKeepsInvariant : Obligations.ResetKeepsInvariant :=
  afterReset_inv 0 [] (by decide : 1 ≤ Config.nctx ∧ Config.nctx ≤ 256)
    (by decide : 1 ≤ Config.nhctx ∧ Config.nhctx ≤ 256) List.all_nil

end Sys2Proof.Machine
end

section
/-! PROOF. What a command does to the slots and the responses, said once; from it the frame of a command, the changes of
status, and the invariant (10_state.md R26, R28, R31, R33, R44; 60_exceptions.md R255, R265). -/

namespace Sys2Proof.Machine

/-! ### What a command writes to the slot it names -/

/-- Command `i` replaces the contents `X` of plain slot `c` by `X'`; `n` is the serial number under which contents
become unspecified. -/
inductive PlainEffect : Instr → Nat → Context → Context → Prop
  | init (c : BitVec 8) (n : Nat) (X : Context) :
      PlainEffect (.init c) c.toNat X (X.start.settle n (.ctx c.toNat))
  | update (c : BitVec 8) (len : BitVec 32) (data : ByteString) (n : Nat) (X : Context)
      (bound : X.withinBound data.length = true) :
      PlainEffect (.update c len data) c.toNat X (X.updated n (.ctx c.toNat) data)
  | finalize (c : BitVec 8) (n : Nat) (X : Context) (active : X.isActive = true) :
      PlainEffect (.finalize c) c.toNat X (Context.unspecified n (.ctx c.toNat) Status.final)

/-- Command `i` replaces the contents `Y` of HMAC slot `h` by `Y'`; see `PlainEffect`. -/
inductive HmacEffect : Instr → Nat → HmacContext → HmacContext → Prop
  | init (h : BitVec 8) (len : BitVec 32) (key : ByteString) (scr : Context) (n : Nat) (Y : HmacContext) :
      HmacEffect (.hmacInit h len key) h.toNat Y
        { Y.start scr key with inner := (Y.start scr key).inner.settle n (.inner h.toNat) }
  | update (h : BitVec 8) (len : BitVec 32) (data : ByteString) (n : Nat) (Y : HmacContext)
      (bound : Y.inner.withinBound data.length = true) :
      HmacEffect (.hmacUpdate h len data) h.toNat Y { Y with inner := Y.inner.updated n (.inner h.toNat) data }
  | finish (h : BitVec 8) (n : Nat) (Y : HmacContext) (active : Y.inner.isActive = true) :
      HmacEffect (.hmacFinish h) h.toNat Y
        { Y with
          inner := Context.unspecified n (.inner h.toNat) Status.final
          outer := Context.unspecified n (.outer h.toNat) Status.final }

theorem plainSlotOf_of_plainEffect {i : Instr} {c : Nat} {X X' : Context} (e : PlainEffect i c X X') :
    plainSlotOf i = some c := by
  cases e <;> rfl

theorem hmacSlotOf_of_hmacEffect {i : Instr} {h : Nat} {Y Y' : HmacContext} (e : HmacEffect i h Y Y') :
    hmacSlotOf i = some h := by
  cases e <;> rfl

/-- What command `i` does to the slots: it leaves them all alone, or it writes the one slot it names. -/
inductive SlotsEffect (s t : State) (i : Instr) : Prop
  | none (ctx : t.ctx = s.ctx) (hctx : t.hctx = s.hctx)
  | plain (c : Nat) (X X' : Context) (slot : s.ctx[c]? = some X) (effect : PlainEffect i c X X')
      (ctx : t.ctx = s.ctx.set c X') (hctx : t.hctx = s.hctx)
  | hmac (h : Nat) (Y Y' : HmacContext) (slot : s.hctx[h]? = some Y) (effect : HmacEffect i h Y Y')
      (hctx : t.hctx = s.hctx.set h Y') (ctx : t.ctx = s.ctx)

theorem slotsEffect_of_effect {s t : State} {i : Instr} (e : Effect s t i) : SlotsEffect s t i := by
  cases i with
  | compress V block => cases e; exact .none rfl rfl
  | init c => obtain ⟨X, slot, rfl⟩ := e; exact .plain _ X _ slot (.init c s.serial X) rfl rfl
  | update c len data =>
    obtain ⟨X, slot, -, -, bound, rfl⟩ := e
    exact .plain _ X _ slot (.update c len data s.serial X bound) rfl rfl
  | finalize c =>
    obtain ⟨X, slot, active, rfl⟩ := e
    exact .plain _ X _ slot (.finalize c s.serial X active) rfl rfl
  | hash len data => obtain ⟨-, rfl⟩ := e; exact .none rfl rfl
  | hmacInit h len key =>
    obtain ⟨Y, slot, -, rfl⟩ := e
    exact .hmac _ Y _ slot (.init h len key s.scr s.serial Y) rfl rfl
  | hmacUpdate h len data =>
    obtain ⟨Y, slot, -, -, bound, rfl⟩ := e
    exact .hmac _ Y _ slot (.update h len data s.serial Y bound) rfl rfl
  | hmacFinish h =>
    obtain ⟨Y, slot, active, rfl⟩ := e
    exact .hmac _ Y _ slot (.finish h s.serial Y active) rfl rfl
  | hmac klen mlen key data => obtain ⟨-, -, rfl⟩ := e; exact .none rfl rfl

/-- Turned away or admitted, a command with a next state touches no slot but the one it names. -/
theorem exec_slotsEffect {i : Instr} {s t : State} (h : exec i s = .next t) : SlotsEffect s t i := by
  obtain ⟨-, rfl | e⟩ := exec_eq_next h
  · exact .none rfl rfl
  · exact slotsEffect_of_effect e

/-! ### What a command answers -/

/-- Between two states one response of a legal length was added, and nothing of what the host has still to send was
consumed. -/
def AddsResponse (s t : State) : Prop :=
  t.input = s.input ∧ ∃ r, t.responses = s.responses ++ [r] ∧ r.wellShaped = true

theorem wellShaped_ok_nil : (Response.ok []).wellShaped = true := rfl

theorem wellShaped_invalidInput : Response.invalidInput.wellShaped = true := rfl

theorem wellShaped_ok_digest {out : ByteString} (h : out.length = 32) : (Response.ok out).wellShaped = true := by
  simp [Response.wellShaped, Response.packet, h]

theorem finish_length (Y : HmacContext) : Y.finish.length = 32 := finalize_length _

theorem addsResponse_of_effect {s t : State} {i : Instr} (e : Effect s t i) : AddsResponse s t := by
  cases i with
  | compress V block => cases e; exact ⟨rfl, _, rfl, wellShaped_ok_digest (digestBytes_length _)⟩
  | init c => obtain ⟨X, -, rfl⟩ := e; exact ⟨rfl, _, rfl, wellShaped_ok_nil⟩
  | update c len data => obtain ⟨X, -, -, -, -, rfl⟩ := e; exact ⟨rfl, _, rfl, wellShaped_ok_nil⟩
  | finalize c => obtain ⟨X, -, -, rfl⟩ := e; exact ⟨rfl, _, rfl, wellShaped_ok_digest (finalize_length X)⟩
  | hash len data => obtain ⟨-, rfl⟩ := e; exact ⟨rfl, _, rfl, wellShaped_ok_digest (finalize_length _)⟩
  | hmacInit h len key => obtain ⟨Y, -, -, rfl⟩ := e; exact ⟨rfl, _, rfl, wellShaped_ok_nil⟩
  | hmacUpdate h len data => obtain ⟨Y, -, -, -, -, rfl⟩ := e; exact ⟨rfl, _, rfl, wellShaped_ok_nil⟩
  | hmacFinish h => obtain ⟨Y, -, -, rfl⟩ := e; exact ⟨rfl, _, rfl, wellShaped_ok_digest (finish_length Y)⟩
  | hmac klen mlen key data => obtain ⟨-, -, rfl⟩ := e; exact ⟨rfl, _, rfl, wellShaped_ok_digest (finish_length _)⟩

theorem addsResponse_rejected (s : State) : AddsResponse s s.rejected := ⟨rfl, _, rfl, wellShaped_invalidInput⟩

theorem exec_addsResponse {i : Instr} {s t : State} (h : exec i s = .next t) : AddsResponse s t := by
  obtain ⟨-, rfl | e⟩ := exec_eq_next h
  · exact addsResponse_rejected s
  · exact addsResponse_of_effect e

/-! ### The frame of a command -/

/-- Settles O41: an unnamed slot is not the one slot a command writes. -/
theorem otherSlotsUntouched : Obligations.OtherSlotsUntouched := by
  intro i s t h
  obtain ⟨input, -⟩ := exec_addsResponse h
  cases exec_slotsEffect h with
  | none ctx hctx =>
    rw [ctx, hctx]
    exact ⟨rfl, rfl, input, fun _ _ => rfl, fun _ _ => rfl⟩
  | plain d X X' slot effect ctx hctx =>
    rw [ctx, hctx, plainSlotOf_of_plainEffect effect]
    exact ⟨List.length_set, rfl, input, fun c hc => List.getElem?_set_ne fun e => hc (congrArg some e), fun _ _ => rfl⟩
  | hmac g Y Y' slot effect hctx ctx =>
    rw [ctx, hctx, hmacSlotOf_of_hmacEffect effect]
    exact ⟨rfl, List.length_set, input, fun _ _ => rfl, fun h hh => List.getElem?_set_ne fun e => hh (congrArg some e)⟩

/-! ### The changes of status -/

theorem isActive_iff (X : Context) : X.isActive = true ↔ X.st = Status.active := decide_eq_true_iff

/-- The status of plain slot `c` changes from that of `X` to that of `X'` as command `i` may change it (10_state.md
R28). -/
def PlainStatusStep (i : Instr) (c : Nat) (X X' : Context) : Prop :=
  X'.st = X.st
  ∨ (X'.st = Status.active ∧ ∃ k, i = .init k ∧ k.toNat = c)
  ∨ (X.st = Status.active ∧ X'.st = Status.final ∧ ∃ k, i = .finalize k ∧ k.toNat = c)

/-- The statuses of HMAC slot `h` change from those of `Y` to those of `Y'` as command `i` may change them (10_state.md
R33). -/
def HmacStatusStep (i : Instr) (h : Nat) (Y Y' : HmacContext) : Prop :=
  (Y'.inner.st = Y.inner.st ∧ Y'.outer.st = Y.outer.st)
  ∨ (Y'.inner.st = Status.active ∧ Y'.outer.st = Y.outer.st ∧ ∃ k len key, i = .hmacInit k len key ∧ k.toNat = h)
  ∨ (Y.inner.st = Status.active ∧ Y'.inner.st = Status.final ∧ Y'.outer.st = Status.final
      ∧ ∃ k, i = .hmacFinish k ∧ k.toNat = h)

theorem absorb_st (X : Context) (data : ByteString) : (X.absorb data).st = X.st := by
  rw [absorb_eq_appendAll]; exact appendAll_st X data

theorem plainEffect_statusStep {i : Instr} {c : Nat} {X X' : Context} (e : PlainEffect i c X X') :
    PlainStatusStep i c X X' := by
  cases e with
  | init c n => exact .inr (.inl ⟨rfl, c, rfl, rfl⟩)
  | update c len data n X bound => exact .inl (updated_st X n _ data)
  | finalize c n X active => exact .inr (.inr ⟨(isActive_iff X).mp active, rfl, c, rfl, rfl⟩)

theorem hmacEffect_statusStep {i : Instr} {h : Nat} {Y Y' : HmacContext} (e : HmacEffect i h Y Y') :
    HmacStatusStep i h Y Y' := by
  cases e with
  | init h len key scr n => exact .inr (.inl ⟨absorb_st _ _, rfl, h, len, key, rfl, rfl⟩)
  | update h len data n Y bound => exact .inl ⟨updated_st Y.inner n _ data, rfl⟩
  | finish h n Y active => exact .inr (.inr ⟨(isActive_iff Y.inner).mp active, rfl, rfl, h, rfl, rfl⟩)

/-- A slot of a list of slots `l` of which slot `d` was rewritten from `z` to `z'`: it is slot `d`, or it is
unchanged. -/
theorem slot_after_set {α : Type} {l : List α} {c d : Nat} {x x' z z' : α} (slot : l[d]? = some z)
    (before : l[c]? = some x) (after : (l.set d z')[c]? = some x') : (c = d ∧ x = z ∧ x' = z') ∨ x' = x := by
  by_cases same : d = c
  · subst same
    rw [List.getElem?_set_self (List.getElem?_eq_some_iff.mp slot).1] at after
    exact .inl ⟨rfl, Option.some.inj (before.symm.trans slot), (Option.some.inj after).symm⟩
  · rw [List.getElem?_set_ne same] at after
    exact .inr (Option.some.inj (after.symm.trans before))

theorem plainStatusStep_of_slotsEffect {s t : State} {i : Instr} (e : SlotsEffect s t i) {c : Nat} {X X' : Context}
    (before : s.ctx[c]? = some X) (after : t.ctx[c]? = some X') : PlainStatusStep i c X X' := by
  have unchanged (same : t.ctx = s.ctx) : PlainStatusStep i c X X' := by
    rw [same] at after
    exact .inl (congrArg Context.st (Option.some.inj (after.symm.trans before)))
  cases e with
  | none ctx => exact unchanged ctx
  | hmac _ _ _ _ _ _ ctx => exact unchanged ctx
  | plain d Z Z' slot effect ctx =>
    rw [ctx] at after
    obtain ⟨rfl, rfl, rfl⟩ | rfl := slot_after_set slot before after
    · exact plainEffect_statusStep effect
    · exact .inl rfl

theorem hmacStatusStep_of_slotsEffect {s t : State} {i : Instr} (e : SlotsEffect s t i) {h : Nat} {Y Y' : HmacContext}
    (before : s.hctx[h]? = some Y) (after : t.hctx[h]? = some Y') : HmacStatusStep i h Y Y' := by
  have unchanged (same : t.hctx = s.hctx) : HmacStatusStep i h Y Y' := by
    rw [same] at after
    obtain rfl := Option.some.inj (after.symm.trans before)
    exact .inl ⟨rfl, rfl⟩
  cases e with
  | none _ hctx => exact unchanged hctx
  | plain _ _ _ _ _ _ hctx => exact unchanged hctx
  | hmac g Z Z' slot effect hctx =>
    rw [hctx] at after
    obtain ⟨rfl, rfl, rfl⟩ | rfl := slot_after_set slot before after
    · exact hmacEffect_statusStep effect
    · exact .inl ⟨rfl, rfl⟩

/-- Settles O42: the one slot a command writes changes status as the effect on it says; no other slot changes. -/
theorem statusTransitions : Obligations.StatusTransitions := fun _ _ _ h =>
  ⟨fun _ _ _ => plainStatusStep_of_slotsEffect (exec_slotsEffect h),
    fun _ _ _ => hmacStatusStep_of_slotsEffect (exec_slotsEffect h)⟩

/-! ### The invariant -/

theorem wellKept_iff (X : Context) :
    X.wellKept = true ↔ X.consistent = true ∧ (X.st = Status.active → X.total.toNat < maxTotal) := by
  simp only [Context.wellKept, Context.isActive, Bool.and_eq_true, Bool.or_eq_true, Bool.not_eq_true',
    decide_eq_true_eq, decide_eq_false_iff_not, imp_iff_not_or]

theorem hmacWellKept_iff (Y : HmacContext) :
    Y.wellKept = true ↔
      Y.inner.wellKept = true
      ∧ (Y.inner.st = Status.active → 64 ≤ Y.inner.total.toNat)
      ∧ (Y.outer.st = Status.uninit ∨ Y.outer.st = Status.final)
      ∧ (Y.inner.st = Status.uninit → Y.outer.st = Status.uninit)
      ∧ (Y.inner.st = Status.final → Y.outer.st = Status.final) := by
  simp only [HmacContext.wellKept, Context.isActive, Bool.and_eq_true, Bool.or_eq_true, Bool.not_eq_true',
    decide_eq_true_eq, decide_eq_false_iff_not, imp_iff_not_or, and_assoc, ne_eq]

/-- Nothing is asked of a Context in `ST_FINAL`, whatever it holds. -/
theorem wellKept_of_final {X : Context} (h : X.st = Status.final) : X.wellKept = true := by
  have inactive : X.isActive = false := by simp [Context.isActive, h]
  simp [Context.wellKept, Context.consistent, inactive, h]

theorem settle_wellKept (X : Context) (n : Nat) (o : Owner) : (X.settle n o).wellKept = X.wellKept := rfl

theorem start_wellKept (X : Context) : X.start.wellKept = true := rfl

theorem withinBound_iff (X : Context) (n : Nat) : X.withinBound n = true ↔ X.total.toNat + n < 2 ^ 61 :=
  decide_eq_true_iff

theorem updated_total {X : Context} {data : ByteString} (n : Nat) (o : Owner)
    (bound : X.withinBound data.length = true) :
    (X.updated n o data).total.toNat = X.total.toNat + data.length := by
  obtain ⟨-, -, -, total, -⟩ := updated_absorbedTo n o ((withinBound_iff X _).mp bound)
  exact total

theorem updated_wellKept {X : Context} {data : ByteString} (n : Nat) (o : Owner) (kept : X.wellKept = true)
    (bound : X.withinBound data.length = true) : (X.updated n o data).wellKept = true := by
  have inScope := (withinBound_iff X _).mp bound
  rw [wellKept_iff, updated_total n o bound]
  exact ⟨updated_consistent n o ((wellKept_iff X).mp kept).1 inScope, fun _ => inScope⟩

/-- The inner Context HMAC_INIT builds: active, with the 64 bytes of `ipad` counted (42_hmac.md R222). -/
theorem absorb_pad_wellKept (X : Context) (B : Block) : (X.start.absorb B.toList).wellKept = true := by
  obtain ⟨-, -, -, total, -⟩ := absorb_pad X B
  rw [wellKept_iff, total]
  exact ⟨absorb_pad_consistent X B, fun _ => by decide⟩

theorem plainEffect_wellKept {i : Instr} {c : Nat} {X X' : Context} (e : PlainEffect i c X X')
    (kept : X.wellKept = true) : X'.wellKept = true := by
  cases e with
  | init c n => exact start_wellKept X
  | update c len data n X bound => exact updated_wellKept n _ kept bound
  | finalize c n => exact wellKept_of_final rfl

theorem hmacEffect_wellKept {i : Instr} {h : Nat} {Y Y' : HmacContext} (e : HmacEffect i h Y Y')
    (kept : Y.wellKept = true) : Y'.wellKept = true := by
  obtain ⟨inner, counted, outer, uninit, final⟩ := (hmacWellKept_iff Y).mp kept
  rw [hmacWellKept_iff]
  cases e with
  | init h len key scr n =>
    obtain ⟨-, -, -, total, active⟩ := absorb_pad Y.inner (padOf (keyBlock scr key) ipadByte)
    refine ⟨absorb_pad_wellKept Y.inner _, fun _ => total.ge, outer, ?_, ?_⟩
    · intro st; exact absurd (active.symm.trans st) (by decide)
    · intro st; exact absurd (active.symm.trans st) (by decide)
  | update h len data n Y bound =>
    have st := updated_st Y.inner n (.inner h.toNat) data
    have total := updated_total n (.inner h.toNat) bound
    refine ⟨updated_wellKept n _ inner bound, ?_, outer, ?_, ?_⟩ <;> simp only [st, total]
    · intro active; exact (counted active).trans (Nat.le_add_right _ _)
    · exact uninit
    · exact final
  | finish h n =>
    exact ⟨wellKept_of_final rfl, nofun, .inr rfl, nofun, fun _ => rfl⟩

theorem all_set_of_all {α : Type} {p : α → Bool} {l : List α} (all : l.all p = true) (c : Nat) {x : α}
    (hx : p x = true) : (l.set c x).all p = true := by
  rw [List.all_eq_true] at all ⊢
  intro y hy
  obtain mem | rfl := List.mem_or_eq_of_mem_set hy
  · exact all y mem
  · exact hx

theorem all_slot {α : Type} {p : α → Bool} {l : List α} {c : Nat} {x : α} (all : l.all p = true)
    (slot : l[c]? = some x) : p x = true :=
  List.all_eq_true.mp all x (List.mem_of_getElem? slot)

theorem ctxKept_of_slotsEffect {s t : State} {i : Instr} (e : SlotsEffect s t i)
    (kept : s.ctx.all Context.wellKept = true) :
    t.ctx.length = s.ctx.length ∧ t.ctx.all Context.wellKept = true := by
  cases e with
  | none ctx => rw [ctx]; exact ⟨rfl, kept⟩
  | hmac _ _ _ _ _ _ ctx => rw [ctx]; exact ⟨rfl, kept⟩
  | plain c X X' slot effect ctx =>
    rw [ctx]
    exact ⟨List.length_set, all_set_of_all kept c (plainEffect_wellKept effect (all_slot kept slot))⟩

theorem hctxKept_of_slotsEffect {s t : State} {i : Instr} (e : SlotsEffect s t i)
    (kept : s.hctx.all HmacContext.wellKept = true) :
    t.hctx.length = s.hctx.length ∧ t.hctx.all HmacContext.wellKept = true := by
  cases e with
  | none _ hctx => rw [hctx]; exact ⟨rfl, kept⟩
  | plain _ _ _ _ _ _ hctx => rw [hctx]; exact ⟨rfl, kept⟩
  | hmac h Y Y' slot effect hctx =>
    rw [hctx]
    exact ⟨List.length_set, all_set_of_all kept h (hmacEffect_wellKept effect (all_slot kept slot))⟩

theorem inv_of_slotsEffect {s t : State} {i : Instr} (inv : s.Inv) (slots : SlotsEffect s t i)
    (answer : AddsResponse s t) : t.Inv := by
  obtain ⟨ctxLength, ctxKept⟩ := ctxKept_of_slotsEffect slots inv.ctxKept
  obtain ⟨hctxLength, hctxKept⟩ := hctxKept_of_slotsEffect slots inv.hctxKept
  obtain ⟨-, r, responses, shaped⟩ := answer
  exact
    { ctxCount := by rw [ctxLength]; exact inv.ctxCount
      hctxCount := by rw [hctxLength]; exact inv.hctxCount
      ctxKept := ctxKept
      hctxKept := hctxKept
      shaped := by simp [responses, inv.shaped, shaped] }

theorem rejected_inv {s : State} (inv : s.Inv) : s.rejected.Inv where
  ctxCount := inv.ctxCount
  hctxCount := inv.hctxCount
  ctxKept := inv.ctxKept
  hctxKept := inv.hctxKept
  shaped := by simp [State.rejected, inv.shaped, wellShaped_invalidInput]

/-- The invariant does not speak of what the host has still to send. -/
theorem inv_with_input {s : State} (inv : s.Inv) (rest : List HostEvent) : ({ s with input := rest } : State).Inv :=
  ⟨inv.ctxCount, inv.hctxCount, inv.ctxKept, inv.hctxKept, inv.shaped⟩

theorem takeReset_inv {s : State} (inv : s.Inv) : s.takeReset.Inv :=
  afterReset_inv s.serial s.input inv.ctxCount inv.hctxCount inv.shaped

/-- Settles O47: an idle step changes nothing, a reset establishes the invariant anew, and a packet is turned away or
has the effect of its command. -/
theorem stepKeepsInvariant : Obligations.StepKeepsInvariant := by
  intro s t inv h
  obtain ⟨-, rfl⟩ | ⟨rest, -, rfl⟩ | ⟨p, rest, -, h⟩ := step_eq_next h
  · exact inv
  · exact takeReset_inv (inv_with_input inv rest)
  · have inv' := inv_with_input inv rest
    obtain ⟨-, rfl | ⟨i, -, effect⟩⟩ := runPacket_eq_next h
    · exact rejected_inv inv'
    · exact inv_of_slotsEffect inv' (slotsEffect_of_effect effect) (addsResponse_of_effect effect)

end Sys2Proof.Machine
end

section
/-! PROOF. Two runs of one command side by side: what the shared operations make of two states that agree, then the two
statements that compare runs, over states that agree but for earlier responses (10_state.md R41; 60_exceptions.md
R259) and over states of equal views (10_state.md R39; 70_reset_and_hazards.md R292). -/

namespace Sys2Proof.Machine

/-! ### Related outcomes -/

/-- Two outcomes of the same kind: the same fault, the same refusal, or next states that `P` relates. -/
def OutcomeRel (P : State → State → Prop) : Result → Result → Prop
  | .next s, .next t => P s t
  | .fault e, .fault f => e = f
  | .refused e, .refused f => e = f
  | _, _ => False

/-- Two optional slots that `f` does not tell apart are both missing or both there. -/
theorem slots_of_map_eq {α β : Type} {f : α → β} {x y : Option α} (h : x.map f = y.map f) :
    (x = none ∧ y = none) ∨ ∃ a b, x = some a ∧ y = some b ∧ f a = f b := by
  match x, y, h with
  | none, none, _ => exact .inl ⟨rfl, rfl⟩
  | some a, some b, h => exact .inr ⟨a, b, rfl, rfl, Option.some.inj h⟩

theorem isActive_of_st {X X' : Context} (h : X.st = X'.st) : X.isActive = X'.isActive := by
  rw [Context.isActive, Context.isActive, h]

theorem outcome_of_rel_next {P : State → State → Prop} {r : Result} {t : State} (h : OutcomeRel P r (.next t)) :
    ∃ s, r = .next s ∧ P s t := by
  cases r with
  | next s => exact ⟨s, rfl, h⟩
  | fault f => exact h.elim
  | refused e => exact h.elim

section admission

variable {P : State → State → Prop} {s t : State}

theorem guarded_rel {run run' : Result} (consistent : s.consistent = t.consistent) (hrun : OutcomeRel P run run') :
    OutcomeRel P (s.guarded run) (t.guarded run') := by
  cases hc : t.consistent with
  | true => rwa [guarded_of_consistent (consistent.trans hc), guarded_of_consistent hc]
  | false => rw [guarded_of_inconsistent (consistent.trans hc), guarded_of_inconsistent hc]; rfl

/-- One check of admission, on which both sides decide alike. -/
theorem check_rel {c c' : Bool} {run run' other other' : Result} (same : c = c')
    (hrun : c = true → OutcomeRel P run run') (hother : OutcomeRel P other other') :
    OutcomeRel P (if c then run else other) (if c' then run' else other') := by
  subst same
  cases c with
  | true => exact hrun rfl
  | false => exact hother

variable {α β : Type} {f : α → β} {ctxOf : α → Context} {slot slot' : Option α} {run run' : α → Result}

/-- What `f` shows of a slot tells its status, so two slots that show the same are admitted or rejected together. -/
theorem admitActive_rel (rejected : P s.rejected t.rejected) (slots : slot.map f = slot'.map f)
    (status : ∀ a b, f a = f b → (ctxOf a).st = (ctxOf b).st)
    (hrun : ∀ a b, f a = f b → (ctxOf a).st = Status.active → OutcomeRel P (run a) (run' b)) :
    OutcomeRel P (s.admitActive slot ctxOf run) (t.admitActive slot' ctxOf run') := by
  obtain ⟨rfl, rfl⟩ | ⟨a, b, rfl, rfl, hab⟩ := slots_of_map_eq slots
  · exact rejected
  · have sameStatus := isActive_of_st (status a b hab)
    exact check_rel sameStatus (fun active => hrun a b hab (of_decide_eq_true active)) rejected

/-- As `admitActive_rel`, for the commands that bring data: `f` also tells the total of an active slot, which decides
the length bound. -/
theorem admitData_rel {len : BitVec 32} {data : ByteString} (rejected : P s.rejected t.rejected)
    (slots : slot.map f = slot'.map f) (status : ∀ a b, f a = f b → (ctxOf a).st = (ctxOf b).st)
    (total : ∀ a b, f a = f b → (ctxOf a).st = Status.active → (ctxOf a).total = (ctxOf b).total)
    (hrun : ∀ a b, f a = f b → (ctxOf a).st = Status.active → (ctxOf a).total.toNat + data.length < 2 ^ 61 →
      OutcomeRel P (run a) (run' b)) :
    OutcomeRel P (s.admitData slot ctxOf len data run) (t.admitData slot' ctxOf len data run') := by
  obtain ⟨rfl, rfl⟩ | ⟨a, b, rfl, rfl, hab⟩ := slots_of_map_eq slots
  · exact rejected
  · have sameStatus := isActive_of_st (status a b hab)
    refine check_rel rfl (fun _ => check_rel sameStatus (fun active => ?_) rejected) rejected
    have active := of_decide_eq_true active
    have sameBound : (ctxOf a).withinBound data.length = (ctxOf b).withinBound data.length := by
      rw [Context.withinBound, Context.withinBound, total a b hab active]
    exact check_rel sameBound (fun bound => hrun a b hab active (of_decide_eq_true bound)) rfl

end admission

/-! ### Other earlier responses -/

/-- `t'` is what `t` is, had the responses before the command been `R` and not the first `n` of `t`. -/
def SameButEarlier (R : List Response) (n : Nat) (t' t : State) : Prop :=
  t' = t.withResponses (R ++ t.responses.drop n)

@[simp] theorem withResponses_ctx (s : State) (R : List Response) : (s.withResponses R).ctx = s.ctx := rfl
@[simp] theorem withResponses_hctx (s : State) (R : List Response) : (s.withResponses R).hctx = s.hctx := rfl

theorem sameButEarlier_rejected (s : State) (R : List Response) :
    SameButEarlier R s.responses.length (s.withResponses R).rejected s.rejected := by
  simp [SameButEarlier, State.rejected, State.withResponses]

/-- A command ends alike whatever was answered before it. -/
theorem complete_sameButEarlier {s s' t : State} {R : List Response} (out : ByteString) (hs' : s' = t.withResponses R)
    (ht : t.responses = s.responses) :
    OutcomeRel (SameButEarlier R s.responses.length) (s'.complete out) (t.complete out) := by
  subst hs'
  simp [OutcomeRel, SameButEarlier, State.complete, State.withResponses, ← ht]

theorem exec_sameButEarlier (i : Instr) (s : State) (R : List Response) :
    OutcomeRel (SameButEarlier R s.responses.length) (exec i (s.withResponses R)) (exec i s) := by
  have rejected := sameButEarlier_rejected s R
  cases i with
  | compress V block => exact guarded_rel rfl (complete_sameButEarlier _ rfl rfl)
  | init c =>
    refine guarded_rel rfl ?_
    simp only [withResponses_ctx]
    cases s.ctx[slotIndex c]? with
    | none => exact rejected
    | some X => exact complete_sameButEarlier _ rfl rfl
  | update c len data =>
    refine guarded_rel rfl (admitData_rel (f := id) rejected rfl (by simp) (by simp) ?_)
    rintro X _ rfl - -
    exact complete_sameButEarlier _ (by simp only [releaseDatapath_eq]; rfl) (by simp)
  | finalize c =>
    refine guarded_rel rfl (admitActive_rel (f := id) rejected rfl (by simp) ?_)
    rintro X _ rfl -
    exact complete_sameButEarlier _ rfl rfl
  | hash len data => exact guarded_rel rfl (check_rel rfl (fun _ => complete_sameButEarlier _ rfl rfl) rejected)
  | hmacInit h len key =>
    refine guarded_rel rfl ?_
    simp only [withResponses_hctx]
    cases s.hctx[slotIndex h]? with
    | none => exact rejected
    | some Y =>
      refine check_rel rfl (fun _ => ?_) rejected
      exact complete_sameButEarlier _ (by simp only [releaseScr_eq]; rfl) (by simp)
  | hmacUpdate h len data =>
    refine guarded_rel rfl (admitData_rel (f := id) rejected rfl (by simp) (by simp) ?_)
    rintro Y _ rfl - -
    exact complete_sameButEarlier _ (by simp only [releaseDatapath_eq]; rfl) (by simp)
  | hmacFinish h =>
    refine guarded_rel rfl (admitActive_rel (f := id) rejected rfl (by simp) ?_)
    rintro Y _ rfl -
    exact complete_sameButEarlier _ rfl rfl
  | hmac klen mlen key data =>
    refine guarded_rel rfl (check_rel rfl (fun _ => ?_) rejected)
    exact complete_sameButEarlier _ (by simp only [releaseScr_eq]; rfl) (by simp)

/-- Settles O44: run after other responses, the command has an outcome related to `t`, which says which state it is. -/
theorem earlierResponsesAreNeverRead : Obligations.EarlierResponsesAreNeverRead := by
  intro i s t R h
  obtain ⟨t', ht', rfl⟩ := outcome_of_rel_next (h ▸ exec_sameButEarlier i s R)
  exact ht'

/-! ### Equal views: the states -/

/-- Nothing that is defined tells the two states apart: `State.view`, field by field (10_state.md R39). -/
structure ViewsAgree (s t : State) : Prop where
  ctx : s.ctx.map Context.view = t.ctx.map Context.view
  hctx : s.hctx.map HmacContext.view = t.hctx.map HmacContext.view
  input : s.input = t.input
  responses : s.responses = t.responses

theorem viewsAgree_iff (s t : State) : s.view = t.view ↔ ViewsAgree s t := by
  simp only [State.view, StateView.mk.injEq]
  exact ⟨fun ⟨ctx, hctx, input, responses⟩ => ⟨ctx, hctx, input, responses⟩,
    fun h => ⟨h.ctx, h.hctx, h.input, h.responses⟩⟩

theorem sameOutcome_of_rel {r r' : Result} (h : OutcomeRel ViewsAgree r r') : SameOutcome r r' := by
  cases r with
  | next s =>
    cases r' with
    | next t => exact (viewsAgree_iff s t).mpr h
    | fault f => exact h
    | refused e => exact h
  | fault f => cases r' <;> exact h
  | refused e => cases r' <;> exact h

/-- What is decided by the view of each element is decided by the views of the list. -/
theorem all_of_map_eq {α β : Type} {f : α → β} {p : α → Bool} (hp : ∀ a b, f a = f b → p a = p b) {l l' : List α}
    (h : l.map f = l'.map f) : l.all p = l'.all p := by
  induction l generalizing l' with
  | nil => rw [List.map_eq_nil_iff.mp h.symm]
  | cons a l ih =>
    obtain ⟨b, k, rfl, hb, hk⟩ := List.map_eq_cons_iff.mp h.symm
    rw [List.all_cons, List.all_cons, hp a b hb.symm, ih hk.symm]

theorem view_st {A B : Context} (h : A.view = B.view) : A.st = B.st := ((view_iff A B).mp h).1

theorem hview_inner {A B : HmacContext} (h : A.view = B.view) : A.inner.view = B.inner.view :=
  ((hview_iff A B).mp h).1

theorem hview_outer {A B : HmacContext} (h : A.view = B.view) : A.outer.view = B.outer.view :=
  ((hview_iff A B).mp h).2.1

theorem hview_opad {A B : HmacContext} (h : A.view = B.view) (active : A.inner.st = Status.active) :
    A.opad = B.opad :=
  ((hview_iff A B).mp h).2.2 active

section live

variable {A B : Context} (h : A.view = B.view) (active : A.st = Status.active)
include h active

theorem view_fill : A.fill = B.fill := by
  obtain ⟨-, live⟩ := (view_iff A B).mp h
  obtain ⟨-, -, fill, -⟩ := live active
  exact fill

theorem view_total : A.total = B.total := by
  obtain ⟨-, live⟩ := (view_iff A B).mp h
  obtain ⟨-, -, -, total⟩ := live active
  exact total

/-- Whether the data completes a block shows too. -/
theorem view_fillsBlock (data : ByteString) : A.fillsBlock data = B.fillsBlock data := by
  rw [Context.fillsBlock, Context.fillsBlock, view_fill h active]

end live

section viewsAgree

variable {s t : State} (h : ViewsAgree s t)
include h

/-- The fatal assertion looks at nothing hidden. -/
theorem viewsAgree_consistent : s.consistent = t.consistent := by
  have plain := all_of_map_eq (fun _ _ => consistent_view) h.ctx
  have hmac := all_of_map_eq (p := fun Y : HmacContext => Y.inner.consistent && Y.outer.consistent)
    (fun A B e => by rw [consistent_view (hview_inner e), consistent_view (hview_outer e)]) h.hctx
  rw [State.consistent, State.consistent, plain, hmac]

theorem viewsAgree_slot (c : Nat) : (s.ctx[c]?).map Context.view = (t.ctx[c]?).map Context.view := by
  rw [← List.getElem?_map, ← List.getElem?_map, h.ctx]

theorem viewsAgree_hslot (k : Nat) : (s.hctx[k]?).map HmacContext.view = (t.hctx[k]?).map HmacContext.view := by
  rw [← List.getElem?_map, ← List.getElem?_map, h.hctx]

theorem viewsAgree_rejected : ViewsAgree s.rejected t.rejected :=
  { h with responses := congrArg (· ++ [Response.invalidInput]) h.responses }

theorem viewsAgree_putCtx (c : Nat) {X X' : Context} (hX : X.view = X'.view) :
    ViewsAgree (s.putCtx c X) (t.putCtx c X') :=
  { h with ctx := by simp only [putCtx_ctx, List.map_set, h.ctx, hX] }

theorem viewsAgree_putHctx (k : Nat) {Y Y' : HmacContext} (hY : Y.view = Y'.view) :
    ViewsAgree (s.putHctx k Y) (t.putHctx k Y') :=
  { h with hctx := by simp only [putHctx_hctx, List.map_set, h.hctx, hY] }

theorem viewsAgree_releaseDatapath (u : Bool) : ViewsAgree (s.releaseDatapath u) (t.releaseDatapath u) := by
  cases u with
  | false => exact h
  | true => exact { h with }

theorem viewsAgree_releaseScr (u : Bool) : ViewsAgree (s.releaseScr u) (t.releaseScr u) := by
  cases u with
  | false => exact h
  | true => exact { h with }

theorem viewsAgree_releaseHscr : ViewsAgree s.releaseHscr t.releaseHscr := { h with }

theorem viewsAgree_receive (rest : List HostEvent) :
    ViewsAgree { s with input := rest } { t with input := rest } :=
  { h with input := rfl }

/-- Two commands that end in states that agree, with the same output bytes, have the same outcome. -/
theorem viewsAgree_complete {out out' : ByteString} (same : out = out') :
    OutcomeRel ViewsAgree (s.complete out) (t.complete out') := by
  subst same
  exact { h with responses := congrArg (· ++ [Response.ok out]) h.responses }

end viewsAgree

theorem unspecified_view (n m : Nat) (o : Owner) {st : Status} (inactive : st ≠ Status.active) :
    (Context.unspecified n o st).view = (Context.unspecified m o st).view :=
  (view_iff _ _).mpr ⟨rfl, fun active => absurd active inactive⟩

theorem hmacUnspecified_view (n m k : Nat) {st : Status} (inactive : st ≠ Status.active) :
    (HmacContext.unspecified n k st).view = (HmacContext.unspecified m k st).view :=
  (hview_iff _ _).mpr
    ⟨unspecified_view n m _ inactive, unspecified_view n m _ inactive, fun active => absurd active inactive⟩

/-- The numbers of slots are all that a reset keeps of them, and they show. -/
theorem viewsAgree_takeReset {s t : State} (h : ViewsAgree s t) : ViewsAgree s.takeReset t.takeReset where
  ctx := by
    have slots : s.ctx.length = t.ctx.length := by simpa using congrArg List.length h.ctx
    simp only [State.takeReset, afterReset_ctx, List.map_map, slots]
    exact List.map_congr_left fun c _ => unspecified_view _ _ (.ctx c) (by decide)
  hctx := by
    have slots : s.hctx.length = t.hctx.length := by simpa using congrArg List.length h.hctx
    simp only [State.takeReset, afterReset_hctx, List.map_map, slots]
    exact List.map_congr_left fun k _ => hmacUnspecified_view _ _ k (by decide)
  input := h.input
  responses := h.responses

/-! ### Equal views: what the procedures make of a slot -/

theorem length_lt_of_legal {len : BitVec 32} {data : ByteString} (legal : lengthLegal len data = true) :
    data.length < 2 ^ 31 := by
  obtain ⟨bound, same⟩ := (lengthLegal_iff len data).mp legal
  exact same ▸ bound

theorem start_settle_view (X X' : Context) (n m : Nat) (o : Owner) :
    (X.start.settle n o).view = (X'.start.settle m o).view := by
  rw [settle_view, settle_view, start_view]

/-- `K0` is the same on every scratch Context. -/
theorem keyBlock_scratch (scr scr' : Context) {key : ByteString} (short : key.length < 2 ^ 64) :
    keyBlock scr key = keyBlock scr' key := by
  rw [keyBlock, keyBlock, hash_eq_messageDigest scr key short, hash_eq_messageDigest scr' key short]

/-- What HMAC_INIT leaves in a slot shows nothing of what the slot and the scratch Context held, but for the outer
Context, which it does not touch. -/
theorem hmacStart_settle_view {Y Y' : HmacContext} (scr scr' : Context) {key : ByteString} (n m : Nat) (o : Owner)
    (outer : Y.outer.view = Y'.outer.view) (short : key.length < 2 ^ 64) :
    HmacContext.view { Y.start scr key with inner := (Y.start scr key).inner.settle n o }
      = HmacContext.view { Y'.start scr' key with inner := (Y'.start scr' key).inner.settle m o } := by
  refine (hview_iff _ _).mpr ⟨?_, outer, fun _ => ?_⟩
  · simp only [settle_view, hmacStart_inner, keyBlock_scratch scr scr' short]
    exact absorbed_view (start_view Y.inner Y'.inner) rfl (absorb_spec _ _ (by simp)) (absorb_spec _ _ (by simp))
  · simp only [hmacStart_opad, keyBlock_scratch scr scr' short]

theorem hmacUpdated_view {Y Y' : HmacContext} {data : ByteString} (n m : Nat) (o : Owner) (h : Y.view = Y'.view)
    (active : Y.inner.st = Status.active) (bound : Y.inner.total.toNat + data.length < 2 ^ 61) :
    HmacContext.view { Y with inner := Y.inner.updated n o data }
      = HmacContext.view { Y' with inner := Y'.inner.updated m o data } := by
  have outer := hview_outer h
  have opad := hview_opad h active
  exact (hview_iff _ _).mpr ⟨updated_view n m o (hview_inner h) active bound, outer, fun _ => opad⟩

theorem hmacFinished_view (Y Y' : HmacContext) (n m : Nat) (o o' : Owner) :
    HmacContext.view { Y with
        inner := Context.unspecified n o Status.final
        outer := Context.unspecified n o' Status.final }
      = HmacContext.view { Y' with
        inner := Context.unspecified m o Status.final
        outer := Context.unspecified m o' Status.final } :=
  (hview_iff _ _).mpr
    ⟨unspecified_view n m o (by decide), unspecified_view n m o' (by decide),
      fun active => absurd active (by decide : Status.final ≠ Status.active)⟩

/-- The tag of an active slot is made of what shows of it. -/
theorem finish_view {Y Y' : HmacContext} (h : Y.view = Y'.view) (active : Y.inner.st = Status.active) :
    Y.finish = Y'.finish := by
  rw [finish_eq, finish_eq, hview_opad h active, finalDigest_view (hview_inner h) active]

/-! ### Equal views: the commands -/

section commands

variable {s t : State} (h : ViewsAgree s t)
include h

theorem execCompress_viewsAgree (V : HashState) (block : Block) :
    OutcomeRel ViewsAgree (execCompress V block s) (execCompress V block t) :=
  guarded_rel (viewsAgree_consistent h) (viewsAgree_complete (viewsAgree_releaseDatapath h true) rfl)

theorem execInit_viewsAgree (c : BitVec 8) : OutcomeRel ViewsAgree (execInit c s) (execInit c t) := by
  refine guarded_rel (viewsAgree_consistent h) ?_
  obtain ⟨hs, ht⟩ | ⟨X, X', hs, ht, -⟩ := slots_of_map_eq (viewsAgree_slot h (slotIndex c))
  · simp only [hs, ht]
    exact viewsAgree_rejected h
  · simp only [hs, ht]
    exact viewsAgree_complete (viewsAgree_putCtx h _ (start_settle_view X X' _ _ _)) rfl

theorem execUpdate_viewsAgree (c : BitVec 8) (len : BitVec 32) (data : ByteString) :
    OutcomeRel ViewsAgree (execUpdate c len data s) (execUpdate c len data t) := by
  refine guarded_rel (viewsAgree_consistent h) (admitData_rel (viewsAgree_rejected h) (viewsAgree_slot h _)
    (fun _ _ => view_st) (fun _ _ => view_total) fun X X' same active bound => ?_)
  have slots := viewsAgree_putCtx h (slotIndex c)
    (updated_view s.serial t.serial (.ctx (slotIndex c)) same active bound)
  rw [← view_fillsBlock same active data]
  exact viewsAgree_complete (viewsAgree_releaseDatapath slots _) rfl

theorem execFinalize_viewsAgree (c : BitVec 8) : OutcomeRel ViewsAgree (execFinalize c s) (execFinalize c t) := by
  refine guarded_rel (viewsAgree_consistent h) (admitActive_rel (viewsAgree_rejected h) (viewsAgree_slot h _)
    (fun _ _ => view_st) fun X X' same active => ?_)
  have slots := viewsAgree_putCtx h (slotIndex c)
    (unspecified_view s.serial t.serial (.ctx (slotIndex c)) (by decide : Status.final ≠ Status.active))
  exact viewsAgree_complete (viewsAgree_releaseDatapath slots true) (finalize_view same active)

theorem execHash_viewsAgree (len : BitVec 32) (data : ByteString) :
    OutcomeRel ViewsAgree (execHash len data s) (execHash len data t) := by
  refine guarded_rel (viewsAgree_consistent h) (check_rel rfl (fun legal => ?_) (viewsAgree_rejected h))
  have short := length_lt_of_legal legal
  refine viewsAgree_complete (viewsAgree_releaseDatapath (viewsAgree_releaseScr h true) true) ?_
  rw [hash_eq_messageDigest _ _ (by omega), hash_eq_messageDigest _ _ (by omega)]

theorem execHmacInit_viewsAgree (k : BitVec 8) (len : BitVec 32) (key : ByteString) :
    OutcomeRel ViewsAgree (execHmacInit k len key s) (execHmacInit k len key t) := by
  refine guarded_rel (viewsAgree_consistent h) ?_
  obtain ⟨hs, ht⟩ | ⟨Y, Y', hs, ht, same⟩ := slots_of_map_eq (viewsAgree_hslot h (slotIndex k))
  · simp only [hs, ht]
    exact viewsAgree_rejected h
  · simp only [hs, ht]
    refine check_rel rfl (fun legal => ?_) (viewsAgree_rejected h)
    have short := length_lt_of_legal legal
    have slots := viewsAgree_putHctx h (slotIndex k) (hmacStart_settle_view s.scr t.scr s.serial t.serial
      (.inner (slotIndex k)) (hview_outer same) (by omega : key.length < 2 ^ 64))
    exact viewsAgree_complete (viewsAgree_releaseDatapath (viewsAgree_releaseScr slots _) true) rfl

theorem execHmacUpdate_viewsAgree (k : BitVec 8) (len : BitVec 32) (data : ByteString) :
    OutcomeRel ViewsAgree (execHmacUpdate k len data s) (execHmacUpdate k len data t) := by
  refine guarded_rel (viewsAgree_consistent h) (admitData_rel (viewsAgree_rejected h) (viewsAgree_hslot h _)
    (fun _ _ same => view_st (hview_inner same)) (fun _ _ same => view_total (hview_inner same))
    fun Y Y' same active bound => ?_)
  have slots := viewsAgree_putHctx h (slotIndex k)
    (hmacUpdated_view s.serial t.serial (.inner (slotIndex k)) same active bound)
  rw [← view_fillsBlock (hview_inner same) active data]
  exact viewsAgree_complete (viewsAgree_releaseDatapath slots _) rfl

theorem execHmacFinish_viewsAgree (k : BitVec 8) :
    OutcomeRel ViewsAgree (execHmacFinish k s) (execHmacFinish k t) := by
  refine guarded_rel (viewsAgree_consistent h) (admitActive_rel (viewsAgree_rejected h) (viewsAgree_hslot h _)
    (fun _ _ same => view_st (hview_inner same)) fun Y Y' same active => ?_)
  have slots := viewsAgree_putHctx h (slotIndex k)
    (hmacFinished_view Y Y' s.serial t.serial (.inner (slotIndex k)) (.outer (slotIndex k)))
  exact viewsAgree_complete (viewsAgree_releaseDatapath slots true) (finish_view same active)

theorem execHmac_viewsAgree (klen mlen : BitVec 32) (key data : ByteString) :
    OutcomeRel ViewsAgree (execHmac klen mlen key data s) (execHmac klen mlen key data t) := by
  refine guarded_rel (viewsAgree_consistent h) (check_rel rfl (fun legal => ?_) (viewsAgree_rejected h))
  obtain ⟨keyLegal, dataLegal⟩ := Bool.and_eq_true_iff.mp legal
  have shortKey := length_lt_of_legal keyLegal
  have shortData := length_lt_of_legal dataLegal
  refine viewsAgree_complete
    (viewsAgree_releaseDatapath (viewsAgree_releaseScr (viewsAgree_releaseHscr h) _) true) ?_
  rw [hmac_eq _ _ _ _ (by omega) (by omega), hmac_eq _ _ _ _ (by omega) (by omega)]

/-- A command makes the same of two states that agree: all it reads of a slot is the view, and every scratch register is
written before it is read. -/
theorem exec_viewsAgree (i : Instr) : OutcomeRel ViewsAgree (exec i s) (exec i t) := by
  cases i with
  | compress V block => exact execCompress_viewsAgree h V block
  | init c => exact execInit_viewsAgree h c
  | update c len data => exact execUpdate_viewsAgree h c len data
  | finalize c => exact execFinalize_viewsAgree h c
  | hash len data => exact execHash_viewsAgree h len data
  | hmacInit k len key => exact execHmacInit_viewsAgree h k len key
  | hmacUpdate k len data => exact execHmacUpdate_viewsAgree h k len data
  | hmacFinish k => exact execHmacFinish_viewsAgree h k
  | hmac klen mlen key data => exact execHmac_viewsAgree h klen mlen key data

theorem runPacket_viewsAgree (p : ByteString) : OutcomeRel ViewsAgree (runPacket p s) (runPacket p t) := by
  unfold runPacket
  cases decode p with
  | ok i => exact exec_viewsAgree h i
  | error e => exact guarded_rel (viewsAgree_consistent h) (viewsAgree_rejected h)

theorem step_viewsAgree : OutcomeRel ViewsAgree (step s) (step t) := by
  unfold step State.receive
  rw [← h.input]
  match s.input with
  | [] => exact h
  | .reset :: rest => exact viewsAgree_takeReset (viewsAgree_receive h rest)
  | .packet p :: rest => exact runPacket_viewsAgree (viewsAgree_receive h rest) p

end commands

/-- Settles O50: two states of equal views take the same event, and the reset or the packet makes the same of both. -/
theorem hiddenStateIsUnobservable : Obligations.HiddenStateIsUnobservable := fun s t h =>
  sameOutcome_of_rel (step_viewsAgree ((viewsAgree_iff s t).mp h))

end Sys2Proof.Machine
end

section
/-! PROOF. The byte order: the sum a big-endian read is and the layout of the digest (20_memory.md R62, R63); and the
idempotence of INIT (20_memory.md R69; 41_streaming_hasher.md R181). -/

namespace Sys2Proof.Machine

/-! ### Big-endian reads and writes -/

/-- The read as R62 writes it. Reading one byte more moves every byte before it up by one place of weight 256. -/
theorem memRead_eq_sum (sp : ByteString) (a n : Nat) :
    memRead sp a n = ((List.range n).map fun i => (byteAt sp (a + i)).toNat * 2 ^ (8 * (n - 1 - i))).sum := by
  induction n with
  | zero => rfl
  | succ n ih =>
    have moved_up : ∀ i ∈ List.range n, (byteAt sp (a + i)).toNat * 2 ^ (8 * (n + 1 - 1 - i))
        = 256 * ((byteAt sp (a + i)).toNat * 2 ^ (8 * (n - 1 - i))) := by
      intro i hi
      have inside := List.mem_range.mp hi
      rw [show 8 * (n + 1 - 1 - i) = 8 * (n - 1 - i) + 8 by omega, pow_add]
      ring
    rw [memRead, ih, List.range_succ, List.map_append, List.sum_append, List.map_congr_left moved_up,
      List.sum_map_mul_left]
    simp

/-- As `byteAt_bigEndian`, with the reduction modulo 256 that R63 writes and a byte makes by itself. -/
theorem byteAt_bigEndian_mod {n v i : Nat} (h : i < n) :
    byteAt (bigEndian n v) i = BitVec.ofNat 8 (v / 2 ^ (8 * (n - 1 - i)) % 256) := by
  rw [byteAt_bigEndian h]
  apply BitVec.eq_of_toNat_eq
  simp

theorem memRead_bigEndian_self (n v : Nat) : memRead (bigEndian n v) 0 n = v % 2 ^ (8 * n) := by
  simpa using memRead_bigEndian n v n le_rfl

/-! ### The digest layout -/

/-- Words stored one after the other stand four bytes apart. -/
theorem byteAt_flatMap_wordBytes (l : List Word) {i k : Nat} (hi : i < l.length) (hk : k < 4) :
    byteAt (l.flatMap wordBytes) (4 * i + k) = byteAt (wordBytes l[i]) k := by
  induction l generalizing i with
  | nil => cases hi
  | cons w l ih =>
    rw [List.flatMap_cons]
    cases i with
    | zero =>
      rw [Nat.mul_zero, Nat.zero_add]
      exact byteAt_append_left (by rwa [wordBytes_length])
    | succ i =>
      rw [show 4 * (i + 1) + k = 4 + (4 * i + k) by omega, ← byteAt_drop, drop_wordBytes_append]
      exact ih (Nat.lt_of_succ_lt_succ hi)

theorem byteAt_digestBytes (V : HashState) (i : Fin 8) {k : Nat} (hk : k < 4) :
    byteAt (digestBytes V) (4 * i.val + k) = byteAt (wordBytes V[i]) k :=
  byteAt_flatMap_wordBytes V.toList (by simp) hk

/-- Settles O8: the laws hold at every offset, width and chaining value; only the three examples are computed. -/
theorem bigEndianReadAndWrite : Obligations.BigEndianReadAndWrite :=
  ⟨memRead_eq_sum,
    fun _ _ _ inside => byteAt_bigEndian_mod inside,
    fun n v => ⟨bigEndian_length n v, memRead_bigEndian_self n v⟩,
    fun V => ⟨digestBytes_length V, fun i _ inside => byteAt_digestBytes V i inside⟩,
    by decide, by decide, by decide⟩

/-! ### INIT twice -/

theorem start_consistent (X : Context) : X.start.consistent = true := rfl

/-- INIT brings no slot into a violated assertion: it starts one Context and keeps the others (60_exceptions.md R255). -/
theorem afterInit_consistent {s : State} (c : BitVec 8) (X : Context) (h : s.consistent = true) :
    (s.afterInit c X).consistent = true := by
  obtain ⟨plain, hmac⟩ := Bool.and_eq_true_iff.mp h
  exact Bool.and_eq_true_iff.mpr ⟨all_set_of_all plain c.toNat (start_consistent X), hmac⟩

/-- A second INIT writes the slot the first has written, and what shows of a started Context does not depend on what it
held before; only the response is new. -/
theorem afterInit_afterInit_view (s : State) (c : BitVec 8) (X X' : Context) :
    ((s.afterInit c X).afterInit c X').view
      = { (s.afterInit c X).view with responses := (s.afterInit c X).responses ++ [.ok []] } := by
  have slots : ((s.afterInit c X).afterInit c X').ctx.map Context.view = (s.afterInit c X).ctx.map Context.view := by
    simp only [State.afterInit, List.set_set, List.map_set,
      start_settle_view X' X (s.serial + 1) s.serial (.ctx c.toNat)]
  rw [State.view, slots]
  rfl

/-- Settles O45: the slot still exists after the first INIT and no assertion is violated, so the second completes too. -/
theorem initTwiceEqualsOnce : Obligations.InitTwiceEqualsOnce := by
  intro c s consistent exists_slot
  have slot := List.getElem?_eq_getElem exists_slot
  have slot_again : (s.afterInit c s.ctx[c.toNat]).ctx[c.toNat]? = some _ := List.getElem?_set_self exists_slot
  exact ⟨_, _, exec_init consistent slot, exec_init (afterInit_consistent c _ consistent) slot_again,
    afterInit_afterInit_view s c _ _⟩

end Sys2Proof.Machine
end

section
/-! PROOF. The packet layer: a packet is a header word and a body, the header is its three fields, and each format says
which bodies it accepts; from these the round trip both ways, the illegal packets, the opcode map and the assembler lines
(30_encoding.md R92 to R99, R104, R106). -/

namespace Sys2Proof.Machine

/-! ### The length operand -/

theorem signedLength_eq (len : BitVec 32) :
    signedLength len = if len.toNat < 2 ^ 31 then (len.toNat : Int) else (len.toNat : Int) - 2 ^ 32 := by
  rw [signedLength, BitVec.toInt_eq_toNat_cond]
  split <;> split <;> omega

/-- Settles O9: both clauses are facts about one length word, whatever string comes with it. -/
theorem lengthOperandIsSigned : Obligations.LengthOperandIsSigned := fun len data =>
  ⟨signedLength_eq len, lengthLegal_iff len data⟩

theorem lengthLegal_of_sendable {M : ByteString} (h : Sendable M) :
    lengthLegal (BitVec.ofNat 32 M.length) M = true := by
  have short : M.length < 2 ^ 31 := h
  have exact_length : (BitVec.ofNat 32 M.length).toNat = M.length := by
    rw [BitVec.toNat_ofNat]; omega
  exact (lengthLegal_iff _ M).mpr ⟨by omega, exact_length.symm⟩

/-- A length written into a packet in two's complement is legal for no string of another length (30_encoding.md R94). -/
theorem lengthLegal_ofInt_ne {n : Int} {data : ByteString} (low : -2 ^ 31 ≤ n) (high : n < 2 ^ 31)
    (wrong : n ≠ data.length) : lengthLegal (BitVec.ofInt 32 n) data ≠ true := by
  have reads_back : signedLength (BitVec.ofInt 32 n) = n := BitVec.toInt_ofInt_eq_self (by decide) low high
  intro legal
  rw [lengthLegal, reads_back, Bool.and_eq_true, decide_eq_true_eq, decide_eq_true_eq] at legal
  exact wrong legal.2.symm

/-! ### A packet is a header and a body -/

/-- The opcode of a command (30_encoding.md R98). -/
def opcodeOf : Instr → Opcode
  | .compress _ _ => .compress
  | .init _ => .init
  | .update _ _ _ => .update
  | .finalize _ => .finalize
  | .hash _ _ => .hash
  | .hmacInit _ _ _ => .hmacInit
  | .hmacUpdate _ _ _ => .hmacUpdate
  | .hmacFinish _ => .hmacFinish
  | .hmac _ _ _ _ => .hmac

/-- The `SLOT` field of a command, 0 where it names no slot (30_encoding.md R92, R95). -/
def slotFieldOf : Instr → BitVec 8
  | .init c => c
  | .update c _ _ => c
  | .finalize c => c
  | .hmacInit h _ _ => h
  | .hmacUpdate h _ _ => h
  | .hmacFinish h => h
  | .compress _ _ => 0
  | .hash _ _ => 0
  | .hmac _ _ _ _ => 0

/-- What follows the header in the packet of a command (30_encoding.md R93). -/
def bodyOf : Instr → ByteString
  | .compress V block => digestBytes V ++ block.toList
  | .init _ => []
  | .update _ len data => wordBytes len ++ data
  | .finalize _ => []
  | .hash len data => wordBytes len ++ data
  | .hmacInit _ len key => wordBytes len ++ key
  | .hmacUpdate _ len data => wordBytes len ++ data
  | .hmacFinish _ => []
  | .hmac klen mlen key data => wordBytes klen ++ wordBytes mlen ++ key ++ data

theorem encode_eq (i : Instr) : encode i = wordBytes (headerWord (opcodeOf i) (slotFieldOf i)) ++ bodyOf i := by
  cases i <;> simp [encode, opcodeOf, slotFieldOf, bodyOf]

theorem slotFieldOf_slotless (i : Instr) : (opcodeOf i).slotless = true → slotFieldOf i = 0 := by
  cases i <;> simp [opcodeOf, slotFieldOf, Opcode.slotless]

/-- The format an opcode reads its body in (30_encoding.md R93). -/
def decodeBody (op : Opcode) (slot : BitVec 8) (body : ByteString) : Except DecodeError Instr :=
  match op with
  | .compress => decodeC .compress body
  | .init => decodeN (.init slot) body
  | .update => decodeB (.update slot) body
  | .finalize => decodeN (.finalize slot) body
  | .hash => decodeB .hash body
  | .hmacInit => decodeB (.hmacInit slot) body
  | .hmacUpdate => decodeB (.hmacUpdate slot) body
  | .hmacFinish => decodeN (.hmacFinish slot) body
  | .hmac => decodeK .hmac body

theorem decode_of_short {p : ByteString} (h : p.length < 4) : decode p = .error .shortPacket := by
  rw [decode, if_pos h]

theorem decode_of_header_error {p : ByteString} {e : DecodeError} (long : 4 ≤ p.length)
    (h : decodeHeader (wordAt p 0) = .error e) : decode p = .error e := by
  rw [decode, if_neg (by omega), h]

theorem decode_of_header_ok {p : ByteString} {op : Opcode} {slot : BitVec 8} (long : 4 ≤ p.length)
    (h : decodeHeader (wordAt p 0) = .ok (op, slot)) : decode p = decodeBody op slot (p.drop 4) := by
  rw [decode, if_neg (by omega), h]
  cases op <;> rfl

theorem decode_headerWord_append {op : Opcode} {slot : BitVec 8} (h : op.slotless = true → slot = 0)
    (body : ByteString) : decode (wordBytes (headerWord op slot) ++ body) = decodeBody op slot body := by
  rw [decode_header_append op slot h]
  cases op <;> rfl

/-- A packet the decoder accepts has a legal header, and its format accepts the rest. -/
theorem decode_ok {p : ByteString} {i : Instr} (h : decode p = .ok i) :
    ∃ op slot body, p = wordBytes (headerWord op slot) ++ body ∧ (op.slotless = true → slot = 0)
      ∧ decodeBody op slot body = .ok i := by
  by_cases short : p.length < 4
  · rw [decode_of_short short] at h; cases h
  · have long := Nat.le_of_not_lt short
    cases header : decodeHeader (wordAt p 0) with
    | error e => rw [decode_of_header_error long header] at h; cases h
    | ok fields =>
      obtain ⟨op, slot⟩ := fields
      obtain ⟨word, slotless⟩ := decodeHeader_ok header
      refine ⟨op, slot, p.drop 4, ?_, slotless, (decode_of_header_ok long header).symm.trans h⟩
      rw [← word]
      exact word_split p long

/-! ### The round trip -/

/-- Each format reads back the body of a command whose length operands are legal. -/
theorem decodeBody_bodyOf {i : Instr} (h : i.WellFormed) :
    decodeBody (opcodeOf i) (slotFieldOf i) (bodyOf i) = .ok i := by
  have legal := (wellFormed_iff i).mp h
  cases i with
  | compress V block =>
    have length : (digestBytes V ++ block.toList).length = 96 := by simp [digestBytes_length]
    simp only [decodeBody, opcodeOf, bodyOf, decodeC, if_pos length, stateWords_encode,
      blockBytes_encode _ block (digestBytes_length V)]
  | init c => rfl
  | update c len data => exact decodeB_encode (.update c) len data (legal (len, data) (.head _))
  | finalize c => rfl
  | hash len data => exact decodeB_encode .hash len data (legal (len, data) (.head _))
  | hmacInit c len key => exact decodeB_encode (.hmacInit c) len key (legal (len, key) (.head _))
  | hmacUpdate c len data => exact decodeB_encode (.hmacUpdate c) len data (legal (len, data) (.head _))
  | hmacFinish c => rfl
  | hmac klen mlen key data =>
    exact decodeK_encode .hmac klen mlen key data (legal (klen, key) (.head _)) (legal (mlen, data) (.tail _ (.head _)))

/-- Settles O10: the header names the format, and the format reads the body back. -/
theorem decodeOfEncodeIsIdentity : Obligations.DecodeOfEncodeIsIdentity := by
  intro i wellFormed
  rw [encode_eq, decode_headerWord_append (slotFieldOf_slotless i), decodeBody_bodyOf wellFormed]

theorem wellFormed_of_no_strings {i : Instr} (h : i.strings = []) : i.WellFormed := by
  simp [wellFormed_iff, h]

theorem wellFormed_of_one_string {i : Instr} {len : BitVec 32} {data : ByteString} (h : i.strings = [(len, data)])
    (legal : lengthLegal len data = true) : i.WellFormed := by
  simp [wellFormed_iff, h, legal]

theorem hmac_wellFormed {klen mlen : BitVec 32} {key data : ByteString} (hkey : lengthLegal klen key = true)
    (hdata : lengthLegal mlen data = true) : (Instr.hmac klen mlen key data).WellFormed := by
  simp [wellFormed_iff, Instr.strings, hkey, hdata]

/-- A format accepts no body but that of the well-formed command it gives. -/
theorem decodeBody_ok {op : Opcode} {slot : BitVec 8} {body : ByteString} {i : Instr}
    (slotless : op.slotless = true → slot = 0) (h : decodeBody op slot body = .ok i) :
    i.WellFormed ∧ opcodeOf i = op ∧ slotFieldOf i = slot ∧ bodyOf i = body := by
  cases op with
  | compress =>
    obtain ⟨V, block, rfl, rfl⟩ := decodeC_ok h
    exact ⟨wellFormed_of_no_strings rfl, rfl, (slotless rfl).symm, rfl⟩
  | init => obtain ⟨rfl, rfl⟩ := decodeN_ok h; exact ⟨wellFormed_of_no_strings rfl, rfl, rfl, rfl⟩
  | update =>
    obtain ⟨len, data, rfl, legal, rfl⟩ := decodeB_ok h
    exact ⟨wellFormed_of_one_string rfl legal, rfl, rfl, rfl⟩
  | finalize => obtain ⟨rfl, rfl⟩ := decodeN_ok h; exact ⟨wellFormed_of_no_strings rfl, rfl, rfl, rfl⟩
  | hash =>
    obtain ⟨len, data, rfl, legal, rfl⟩ := decodeB_ok h
    exact ⟨wellFormed_of_one_string rfl legal, rfl, (slotless rfl).symm, rfl⟩
  | hmacInit =>
    obtain ⟨len, key, rfl, legal, rfl⟩ := decodeB_ok h
    exact ⟨wellFormed_of_one_string rfl legal, rfl, rfl, rfl⟩
  | hmacUpdate =>
    obtain ⟨len, data, rfl, legal, rfl⟩ := decodeB_ok h
    exact ⟨wellFormed_of_one_string rfl legal, rfl, rfl, rfl⟩
  | hmacFinish => obtain ⟨rfl, rfl⟩ := decodeN_ok h; exact ⟨wellFormed_of_no_strings rfl, rfl, rfl, rfl⟩
  | hmac =>
    obtain ⟨klen, mlen, key, data, rfl, klegal, mlegal, rfl⟩ := decodeK_ok h
    exact ⟨hmac_wellFormed klegal mlegal, rfl, (slotless rfl).symm, rfl⟩

/-- Settles O11: header and body of an accepted packet are those of the command it decodes to. -/
theorem encodeOfDecodeIsIdentity : Obligations.EncodeOfDecodeIsIdentity := by
  intro p i h
  obtain ⟨op, slot, body, rfl, slotless, accepted⟩ := decode_ok h
  obtain ⟨wellFormed, rfl, rfl, rfl⟩ := decodeBody_ok slotless accepted
  exact ⟨wellFormed, encode_eq i⟩

/-- Settles O14: each packet is, byte for byte, the packet of its command. -/
theorem specPacketsDecode : Obligations.SpecPacketsDecode :=
  ⟨decodeOfEncodeIsIdentity (.init 1) rfl, decodeOfEncodeIsIdentity (.init 255) rfl,
    decodeOfEncodeIsIdentity (.update 1 3 [0x61, 0x62, 0x63]) (by decide), decodeOfEncodeIsIdentity (.finalize 1) rfl,
    decodeOfEncodeIsIdentity (.hash 3 [0x61, 0x62, 0x63]) (by decide),
    decodeOfEncodeIsIdentity (.hmacInit 0 3 [0x6b, 0x65, 0x79]) (by decide),
    decodeOfEncodeIsIdentity (.hmacUpdate 0 3 [0x61, 0x62, 0x63]) (by decide),
    decodeOfEncodeIsIdentity (.hmacFinish 0) rfl,
    decodeOfEncodeIsIdentity (.hmac 3 3 [0x6b, 0x65, 0x79] [0x61, 0x62, 0x63]) (by decide)⟩

/-! ### The illegal packets -/

theorem signedLength_neg_iff (len : BitVec 32) : signedLength len < 0 ↔ 2 ^ 31 ≤ len.toNat := by
  rw [← not_le, signedLength_nonneg_iff, not_lt]

theorem decodeN_error_iff (i : Instr) (body : ByteString) : (∃ e, decodeN i body = .error e) ↔ body.length ≠ 0 := by
  unfold decodeN
  split <;> simp [*]

theorem decodeC_error_iff (mk : HashState → Block → Instr) (body : ByteString) :
    (∃ e, decodeC mk body = .error e) ↔ body.length ≠ 96 := by
  unfold decodeC
  split <;> simp [*]

theorem decodeB_error_iff (mk : BitVec 32 → ByteString → Instr) (body : ByteString) :
    (∃ e, decodeB mk body = .error e) ↔
      body.length < 4 ∨ 2 ^ 31 ≤ (wordAt body 0).toNat ∨ body.length ≠ 4 + (wordAt body 0).toNat := by
  unfold decodeB
  simp only [signedLength_neg_iff]
  split_ifs with short negative mismatch
  · simp [short]
  · exact iff_of_true ⟨_, rfl⟩ (by omega)
  · rw [signedLength_of_lt (by omega)] at mismatch
    exact iff_of_true ⟨_, rfl⟩ (by omega)
  · rw [signedLength_of_lt (by omega)] at mismatch
    exact iff_of_false nofun (by omega)

theorem decodeK_error_iff (mk : BitVec 32 → BitVec 32 → ByteString → ByteString → Instr) (body : ByteString) :
    (∃ e, decodeK mk body = .error e) ↔
      body.length < 8 ∨ 2 ^ 31 ≤ (wordAt body 0).toNat ∨ 2 ^ 31 ≤ (wordAt body 4).toNat
        ∨ body.length ≠ 8 + (wordAt body 0).toNat + (wordAt body 4).toNat := by
  unfold decodeK
  simp only [signedLength_neg_iff]
  split_ifs with short negative mismatch
  · simp [short]
  · exact iff_of_true ⟨_, rfl⟩ (by omega)
  · rw [signedLength_of_lt (by omega), signedLength_of_lt (by omega)] at mismatch
    exact iff_of_true ⟨_, rfl⟩ (by omega)
  · rw [signedLength_of_lt (by omega), signedLength_of_lt (by omega)] at mismatch
    exact iff_of_false nofun (by omega)

/-- R99 (b), (c), (d) of a header word of value `hd`. -/
def HeaderIllegal (hd : Nat) : Prop :=
  (hd / 2 ^ 28 = 0 ∨ 10 ≤ hd / 2 ^ 28)
  ∨ hd % 2 ^ 20 ≠ 0
  ∨ ((hd / 2 ^ 28 = 1 ∨ hd / 2 ^ 28 = 5 ∨ hd / 2 ^ 28 = 9) ∧ hd / 2 ^ 20 % 256 ≠ 0)

/-- R99 (e), (f), (g) of a packet of `n` bytes with opcode `opc` whose two words after the header are `w1` and `w2`. -/
def BodyIllegal (opc n w1 w2 : Nat) : Prop :=
  ((opc = 3 ∨ opc = 5 ∨ opc = 6 ∨ opc = 7) ∧ (n < 8 ∨ 2 ^ 31 ≤ w1 ∨ n ≠ 8 + w1))
  ∨ (opc = 9 ∧ (n < 12 ∨ 2 ^ 31 ≤ w1 ∨ 2 ^ 31 ≤ w2 ∨ n ≠ 12 + w1 + w2))
  ∨ ((opc = 2 ∨ opc = 4 ∨ opc = 8) ∧ n ≠ 4)
  ∨ (opc = 1 ∧ n ≠ 100)

theorem packetIllegal_iff (p : ByteString) :
    PacketIllegal p ↔ p.length < 4 ∨ HeaderIllegal (memRead p 0 4)
      ∨ BodyIllegal (memRead p 0 4 / 2 ^ 28) p.length (memRead p 4 4) (memRead p 8 4) := by
  simp only [PacketIllegal, HeaderIllegal, BodyIllegal, or_assoc]

theorem ofBits_eq_none_iff (opc : BitVec 4) : Opcode.ofBits opc = none ↔ opc.toNat = 0 ∨ 10 ≤ opc.toNat := by
  revert opc; decide

theorem slotless_iff (op : Opcode) :
    op.slotless = true ↔ op.bits.toNat = 1 ∨ op.bits.toNat = 5 ∨ op.bits.toNat = 9 := by
  cases op <;> decide

theorem decodeHeader_error_iff (hd : Word) : (∃ e, decodeHeader hd = .error e) ↔ HeaderIllegal hd.toNat := by
  have opc := headerOpc_toNat hd
  have rsv : headerRsv hd = 0 ↔ hd.toNat % 1048576 = 0 := by rw [← BitVec.toNat_inj, headerRsv_toNat]; rfl
  have slot : headerSlot hd = 0 ↔ hd.toNat / 1048576 % 256 = 0 := by rw [← BitVec.toNat_inj, headerSlot_toNat]; rfl
  simp only [HeaderIllegal, Nat.reducePow, ← opc]
  unfold decodeHeader
  cases named : Opcode.ofBits (headerOpc hd) with
  | none => exact iff_of_true ⟨_, rfl⟩ (.inl ((ofBits_eq_none_iff _).mp named))
  | some op =>
    have legal : ¬ ((headerOpc hd).toNat = 0 ∨ 10 ≤ (headerOpc hd).toNat) := by
      rw [← ofBits_eq_none_iff, named]; nofun
    have slotless := slotless_iff op
    rw [← ofBits_eq named] at slotless
    simp only [ne_eq, rsv, slot, slotless]
    split_ifs with clear named_slot
    · exact iff_of_true ⟨_, rfl⟩ (.inr (.inr named_slot))
    · exact iff_of_false nofun fun h => named_slot ((h.resolve_left legal).resolve_left (not_not.mpr clear))
    · exact iff_of_true ⟨_, rfl⟩ (.inr (.inl clear))

/-- A format rejects what R99 (e), (f), (g) do: each opcode leaves one clause of `BodyIllegal`, that of its format, with
the 4 header bytes counted in. -/
theorem decodeBody_error_iff (op : Opcode) (slot : BitVec 8) {p : ByteString} (long : 4 ≤ p.length) :
    (∃ e, decodeBody op slot (p.drop 4) = .error e)
      ↔ BodyIllegal op.bits.toNat p.length (memRead p 4 4) (memRead p 8 4) := by
  cases op with
  | init | finalize | hmacFinish =>
    rw [decodeBody, decodeN_error_iff]
    simp [BodyIllegal, Opcode.bits]
    omega
  | update | hash | hmacInit | hmacUpdate =>
    rw [decodeBody, decodeB_error_iff]
    simp [BodyIllegal, Opcode.bits, wordAt_drop, wordAt_toNat]
    omega
  | hmac =>
    rw [decodeBody, decodeK_error_iff]
    simp [BodyIllegal, Opcode.bits, wordAt_drop, wordAt_toNat]
    omega
  | compress =>
    rw [decodeBody, decodeC_error_iff]
    simp [BodyIllegal, Opcode.bits]
    omega

/-- Settles O12: a packet is rejected for its first 4 bytes, by its header, or by the format its header names, and each
of the three rejects what the rule does. -/
theorem decodeRejectsExactlyIllegalPackets : Obligations.DecodeRejectsExactlyIllegalPackets := by
  intro p
  rw [packetIllegal_iff]
  by_cases short : p.length < 4
  · exact iff_of_true ⟨_, decode_of_short short⟩ (.inl short)
  have long := Nat.le_of_not_lt short
  have legal_header := decodeHeader_error_iff (wordAt p 0)
  rw [wordAt_toNat] at legal_header
  cases header : decodeHeader (wordAt p 0) with
  | error e =>
    exact iff_of_true ⟨e, decode_of_header_error long header⟩ (.inr (.inl (legal_header.mp ⟨e, header⟩)))
  | ok fields =>
    obtain ⟨op, slot⟩ := fields
    have not_illegal : ¬ HeaderIllegal (memRead p 0 4) := fun h => by
      obtain ⟨e, rejected⟩ := legal_header.mpr h
      rw [header] at rejected
      cases rejected
    have opc : memRead p 0 4 / 2 ^ 28 = op.bits.toNat := by
      rw [← headerOpc_headerWord op slot, ← (decodeHeader_ok header).1, headerOpc_toNat, wordAt_toNat]
      rfl
    rw [decode_of_header_ok long header, decodeBody_error_iff op slot long, opc]
    exact ⟨fun h => .inr (.inr h), fun h => (h.resolve_left short).resolve_left not_illegal⟩

/-! ### The opcode map -/

/-- The mask of a row of the opcode map: all bits, but for the `SLOT` field of the commands that name a slot
(30_encoding.md R98). -/
def selectMask (op : Opcode) : Word := if op.slotless then 0xFFFFFFFF else 0xF00FFFFF

theorem opcodeMap_rows : ∀ row ∈ opcodeMap, row.2 = (headerWord row.1 0, selectMask row.1) := by decide

/-- A header word is its three fields; with the reserved bits 0 it is the header of its opcode and slot. -/
theorem eq_headerWord_iff (hd : Word) (op : Opcode) (slot : BitVec 8) :
    hd = headerWord op slot ↔ headerOpc hd = op.bits ∧ headerSlot hd = slot ∧ headerRsv hd = 0 := by
  constructor
  · rintro rfl
    exact ⟨headerOpc_headerWord op slot, headerSlot_headerWord op slot, headerRsv_headerWord op slot⟩
  · rintro ⟨opc, rfl, rsv⟩
    have hopc := headerOpc_toNat hd
    have hslot := headerSlot_toNat hd
    have hrsv := headerRsv_toNat hd
    rw [opc] at hopc
    rw [rsv, BitVec.ofNat_eq_ofNat, BitVec.toNat_ofNat, Nat.zero_mod] at hrsv
    apply BitVec.eq_of_toNat_eq
    rw [headerWord_toNat]
    omega

theorem decodeHeader_eq_ok_iff (hd : Word) (op : Opcode) (slot : BitVec 8) :
    decodeHeader hd = .ok (op, slot) ↔ hd = headerWord op slot ∧ (op.slotless = true → slot = 0) :=
  ⟨decodeHeader_ok, fun ⟨word, slotless⟩ => word ▸ decodeHeader_headerWord op slot slotless⟩

/-- The mask of the commands that name a slot keeps the opcode and the reserved bits and clears the slot. -/
theorem fields_and_slotMask (hd : Word) :
    headerOpc (hd &&& 0xF00FFFFF) = headerOpc hd ∧ headerSlot (hd &&& 0xF00FFFFF) = 0
      ∧ headerRsv (hd &&& 0xF00FFFFF) = headerRsv hd := by
  have opc : headerOpc 0xF00FFFFF = BitVec.allOnes 4 := by decide
  have slot : headerSlot 0xF00FFFFF = 0 := by decide
  have rsv : headerRsv 0xF00FFFFF = BitVec.allOnes 20 := by decide
  simp only [headerOpc, headerSlot, headerRsv, BitVec.extractLsb'_and] at opc slot rsv ⊢
  rw [opc, slot, rsv]
  exact ⟨BitVec.and_allOnes, BitVec.and_zero, BitVec.and_allOnes⟩

/-- Match and mask of an opcode select exactly the headers that decode to it. -/
theorem decodeHeader_selects_iff (op : Opcode) (hd : Word) :
    (∃ slot, decodeHeader hd = .ok (op, slot)) ↔ hd &&& selectMask op = headerWord op 0 := by
  simp only [decodeHeader_eq_ok_iff, selectMask]
  cases slotless : op.slotless with
  | true =>
    have whole : hd &&& 0xFFFFFFFF = hd := BitVec.and_allOnes
    rw [if_pos rfl, whole]
    simp
  | false =>
    obtain ⟨opc, slot, rsv⟩ := fields_and_slotMask hd
    rw [if_neg Bool.false_ne_true, eq_headerWord_iff, opc, slot, rsv]
    simp [eq_headerWord_iff]

/-- Settles O13: every row of the map is the mask of its opcode with the header of slot 0 as match. -/
theorem headerSelectsByMatchAndMask : Obligations.HeaderSelectsByMatchAndMask := by
  intro row hrow hd
  rw [opcodeMap_rows row hrow]
  refine ⟨decodeHeader_selects_iff row.1 hd, fun slot h => ?_⟩
  obtain ⟨-, rfl, -⟩ := (eq_headerWord_iff hd row.1 slot).mp (decodeHeader_ok h).1
  exact headerSlot_toNat hd

/-! ### The assembler lines -/

theorem word_of_own_length {d : LengthSpelling} (h : d.len = none) :
    d.word = BitVec.ofNat 32 d.string.bytes.length := by
  rw [LengthSpelling.word, h]

theorem word_of_written_length {d : LengthSpelling} {n : Int} (h : d.len = some n) : d.word = BitVec.ofInt 32 n := by
  rw [LengthSpelling.word, h]

theorem blockAt_zero_toList {b : ByteString} (h : b.length = 64) : (blockAt b 0).toList = b := by
  unfold blockAt
  rw [Vector.toList_ofFn]
  apply List.ext_getElem
  · simp [h]
  · intro i h1 h2
    rw [List.getElem_ofFn, byteAt, List.getD_eq_getElem?_getD, Nat.mul_zero, Nat.zero_add,
      List.getElem?_eq_getElem h2, Option.getD_some]

/-- A length word that is illegal for the string after it makes a format B body illegal. -/
theorem decodeB_error_of_illegal {mk : BitVec 32 → ByteString → Instr} {len : BitVec 32} {data : ByteString}
    (h : lengthLegal len data ≠ true) : ∃ e, decodeB mk (wordBytes len ++ data) = .error e := by
  rw [Ne, lengthLegal_iff] at h
  rw [decodeB_error_iff, wordAt_wordBytes_append, List.length_append, wordBytes_length]
  omega

/-- The commands of format B, each as a function of its length word and its string (30_encoding.md R93). -/
inductive FormatB : (BitVec 32 → ByteString → Instr) → Prop
  | update (c : BitVec 8) : FormatB (.update c)
  | hash : FormatB .hash
  | hmacInit (h : BitVec 8) : FormatB (.hmacInit h)
  | hmacUpdate (h : BitVec 8) : FormatB (.hmacUpdate h)

/-- Whatever its length word says, the packet of such a command is read in format B. -/
theorem decode_encode_formatB {mk : BitVec 32 → ByteString → Instr} (format : FormatB mk) (len : BitVec 32)
    (data : ByteString) : decode (encode (mk len data)) = decodeB mk (wordBytes len ++ data) := by
  rw [encode_eq, decode_headerWord_append (slotFieldOf_slotless _)]
  cases format <;> rfl

theorem decode_own_length {mk : BitVec 32 → ByteString → Instr} (format : FormatB mk) {d : LengthSpelling}
    (own : d.len = none) (sendable : Sendable d.string.bytes) :
    decode (encode (mk d.word d.string.bytes))
      = .ok (mk (BitVec.ofNat 32 d.string.bytes.length) d.string.bytes) := by
  rw [decode_encode_formatB format, word_of_own_length own, decodeB_encode mk _ _ (lengthLegal_of_sendable sendable)]

theorem decode_wrong_length {mk : BitVec 32 → ByteString → Instr} (format : FormatB mk) {d : LengthSpelling} {n : Int}
    (wrong : d.len = some n ∧ -2 ^ 31 ≤ n ∧ n < 2 ^ 31 ∧ n ≠ d.string.bytes.length) :
    ∃ e, decode (encode (mk d.word d.string.bytes)) = .error e := by
  obtain ⟨written, low, high, mismatch⟩ := wrong
  rw [decode_encode_formatB format, word_of_written_length written]
  exact decodeB_error_of_illegal (lengthLegal_ofInt_ne low high mismatch)

theorem decode_compress_line (V : HashState) {b : StringSpelling} (h : b.bytes.length = 64) :
    decode (Line.compress V b).packet = .ok (.compress V (blockAt b.bytes 0)) := by
  have packet : (Line.compress V b).packet = encode (.compress V (blockAt b.bytes 0)) := by
    rw [Line.packet, encode, blockAt_zero_toList h]
  rw [packet, decodeOfEncodeIsIdentity _ (wellFormed_of_no_strings rfl)]

theorem decode_hmac_line {k d : LengthSpelling} (hk : k.len = none ∧ Sendable k.string.bytes)
    (hd : d.len = none ∧ Sendable d.string.bytes) :
    decode (Line.hmac k d).packet = .ok (.hmac (BitVec.ofNat 32 k.string.bytes.length)
      (BitVec.ofNat 32 d.string.bytes.length) k.string.bytes d.string.bytes) := by
  rw [Line.packet, word_of_own_length hk.1, word_of_own_length hd.1, decodeOfEncodeIsIdentity _
    (hmac_wellFormed (lengthLegal_of_sendable hk.2) (lengthLegal_of_sendable hd.2))]

/-- Settles O15: with no written length a line's packet is that of a well-formed command; a wrong written length is
illegal for its string, and format B checks it. -/
theorem assemblerLinesStandForPackets : Obligations.AssemblerLinesStandForPackets :=
  ⟨fun V _ length => decode_compress_line V length,
    fun c => decodeOfEncodeIsIdentity (.init c) rfl,
    fun c => decodeOfEncodeIsIdentity (.finalize c) rfl,
    fun h => decodeOfEncodeIsIdentity (.hmacFinish h) rfl,
    fun c _ ⟨own, sendable⟩ => decode_own_length (.update c) own sendable,
    fun _ ⟨own, sendable⟩ => decode_own_length .hash own sendable,
    fun h _ ⟨own, sendable⟩ => decode_own_length (.hmacInit h) own sendable,
    fun h _ ⟨own, sendable⟩ => decode_own_length (.hmacUpdate h) own sendable,
    fun _ _ hk hd => decode_hmac_line hk hd,
    fun c _ _ wrong => decode_wrong_length (.update c) wrong,
    fun _ _ wrong => decode_wrong_length .hash wrong,
    fun h _ _ wrong => decode_wrong_length (.hmacInit h) wrong,
    fun h _ _ wrong => decode_wrong_length (.hmacUpdate h) wrong⟩

end Sys2Proof.Machine
end

section
/-! PROOF. The step on a packet: it runs the command the packet decodes to or turns the packet away, and answers once
(30_encoding.md R91, R96, R99, R106; 60_exceptions.md R253). -/

namespace Sys2Proof.Machine

theorem step_packet {s : State} {p : ByteString} {rest : List HostEvent} (h : s.input = .packet p :: rest) :
    step s = runPacket p { s with input := rest } := by
  rw [step, State.receive, h]

theorem runPacket_of_ok {p : ByteString} {i : Instr} (h : decode p = .ok i) (s : State) :
    runPacket p s = exec i s := by
  rw [runPacket, h]

theorem runPacket_of_error {p : ByteString} {e : DecodeError} (h : decode p = .error e) (s : State) :
    runPacket p s = s.rejectPacket := by
  rw [runPacket, h]

/-- Settles O16: receiving the packet is all a step does before it runs the packet's command. -/
theorem stepRunsDecodedCommand : Obligations.StepRunsDecodedCommand := by
  intro s p rest i received decoded
  rw [step_packet received, runPacket_of_ok decoded]

/-- Settles O17: by O12 the decoder rejects the packet, and receiving it violates no assertion. -/
theorem stepRejectsIllegalPacket : Obligations.StepRejectsIllegalPacket := by
  intro s p rest consistent received illegal
  obtain ⟨e, rejected⟩ := (decodeRejectsExactlyIllegalPackets p).mpr illegal
  have still : ({ s with input := rest } : State).consistent = true := consistent
  rw [step_packet received, runPacket_of_error rejected, State.rejectPacket, guarded_of_consistent still]
  rfl

/-! ### The response to a packet -/

/-- A packet with a next state, turned away or run, adds one response of a legal length. -/
theorem runPacket_addsResponse {p : ByteString} {s t : State} (h : runPacket p s = .next t) : AddsResponse s t := by
  obtain ⟨-, rfl | ⟨i, -, effect⟩⟩ := runPacket_eq_next h
  · exact addsResponse_rejected s
  · exact addsResponse_of_effect effect

/-- The status byte tells the responses of a legal length apart: only `OK` has output bytes (30_encoding.md R96). -/
theorem packet_of_wellShaped {r : Response} (h : r.wellShaped = true) :
    (r.packet.length = 33 ∧ byteAt r.packet 0 = 0x00) ∨ r.packet = [0x00] ∨ r.packet = [0x01] := by
  rw [Response.wellShaped, Bool.or_eq_true, decide_eq_true_eq, decide_eq_true_eq] at h
  cases r with
  | invalidInput => exact .inr (.inr rfl)
  | ok out =>
    obtain single | whole := h
    · have empty : out = [] := List.eq_nil_of_length_eq_zero (Nat.succ.inj single)
      exact .inr (.inl (by rw [empty]; rfl))
    · exact .inl ⟨whole, rfl⟩

/-- Settles O43: the step is the packet's run, which answers once, in one of the three shapes. -/
theorem oneResponsePerPacket : Obligations.OneResponsePerPacket := by
  intro s t p rest received h
  rw [step_packet received] at h
  obtain ⟨input, r, responses, shaped⟩ := runPacket_addsResponse h
  exact ⟨input, r, responses, packet_of_wellShaped shaped⟩

end Sys2Proof.Machine
end

section
/-! PROOF. The composite commands: no command brings a slot into a violated assertion, so the sequences complete, and what
their last command answers is what the composite answers (30_encoding.md R105; 60_exceptions.md R255). -/

namespace Sys2Proof.Machine

/-! ### No command violates an assertion -/

theorem consistent_of_final {X : Context} (h : X.st = Status.final) : X.consistent = true := by
  simp [Context.consistent, Context.isActive, h]

theorem plainEffect_consistent {i : Instr} {c : Nat} {X X' : Context} (e : PlainEffect i c X X')
    (kept : X.consistent = true) : X'.consistent = true := by
  cases e with
  | init c n => exact start_consistent X
  | update c len data n X bound => exact updated_consistent n _ kept ((withinBound_iff X _).mp bound)
  | finalize c n => exact consistent_of_final rfl

theorem hmacEffect_consistent {i : Instr} {h : Nat} {Y Y' : HmacContext} (e : HmacEffect i h Y Y')
    (inner : Y.inner.consistent = true) (outer : Y.outer.consistent = true) :
    Y'.inner.consistent = true ∧ Y'.outer.consistent = true := by
  cases e with
  | init h len key scr n => exact ⟨absorb_pad_consistent Y.inner _, outer⟩
  | update h len data n Y bound => exact ⟨updated_consistent n _ inner ((withinBound_iff Y.inner _).mp bound), outer⟩
  | finish h n => exact ⟨consistent_of_final rfl, consistent_of_final rfl⟩

theorem exec_consistent {i : Instr} {s t : State} (h : exec i s = .next t) : t.consistent = true := by
  obtain ⟨plain, hmac⟩ := Bool.and_eq_true_iff.mp (exec_eq_next h).1
  apply Bool.and_eq_true_iff.mpr
  cases exec_slotsEffect h with
  | none ctx hctx => rw [ctx, hctx]; exact ⟨plain, hmac⟩
  | plain c X X' slot effect ctx hctx =>
    rw [ctx, hctx]
    exact ⟨all_set_of_all plain c (plainEffect_consistent effect (all_slot plain slot)), hmac⟩
  | hmac k Y Y' slot effect hctx ctx =>
    rw [ctx, hctx]
    have both := all_slot hmac slot
    obtain ⟨inner, outer⟩ := Bool.and_eq_true_iff.mp both
    exact ⟨plain, all_set_of_all hmac k (Bool.and_eq_true_iff.mpr (hmacEffect_consistent effect inner outer))⟩

theorem execAll_cons {i : Instr} {s t : State} (h : exec i s = .next t) (is : List Instr) :
    execAll (i :: is) s = execAll is t := by
  rw [execAll, h]

/-! ### What the slot of a command holds after it -/

theorem set_slot {α : Type} {l : List α} {c : Nat} {x : α} (slot : l[c]? = some x) (x' : α) :
    (l.set c x')[c]? = some x' :=
  List.getElem?_set_self (List.getElem?_eq_some_iff.mp slot).1

theorem afterInit_slot {s : State} {c : BitVec 8} {X : Context} (slot : s.ctx[c.toNat]? = some X) :
    (s.afterInit c X).ctx[c.toNat]? = some (X.start.settle s.serial (.ctx c.toNat)) := set_slot slot _

theorem afterUpdate_slot {s : State} {c : BitVec 8} {X : Context} (slot : s.ctx[c.toNat]? = some X)
    (data : ByteString) :
    (s.afterUpdate c X data).ctx[c.toNat]? = some (X.updated s.serial (.ctx c.toNat) data) := set_slot slot _

theorem afterHmacInit_slot {s : State} {h : BitVec 8} {Y : HmacContext} (slot : s.hctx[h.toNat]? = some Y)
    (key : ByteString) :
    (s.afterHmacInit h Y key).hctx[h.toNat]? = some
      { Y.start s.scr key with inner := (Y.start s.scr key).inner.settle s.serial (.inner h.toNat) } := set_slot slot _

theorem afterHmacUpdate_slot {s : State} {h : BitVec 8} {Y : HmacContext} (slot : s.hctx[h.toNat]? = some Y)
    (data : ByteString) :
    (s.afterHmacUpdate h Y data).hctx[h.toNat]?
      = some { Y with inner := Y.inner.updated s.serial (.inner h.toNat) data } := set_slot slot _

/-! ### The sequences -/

/-- An UPDATE of a slot that an earlier command has settled shows what absorbing the data without settling shows. -/
theorem settle_updated_view {X : Context} (n m : Nat) (o : Owner) {data : ByteString} (active : X.st = Status.active)
    (bound : X.total.toNat + data.length < 2 ^ 61) :
    ((X.settle n o).updated m o data).view = (X.absorb data).view :=
  absorbed_view (settle_view X n o) active (updated_absorbedTo m o bound) (absorb_spec X data (by omega))

/-- The tag of a slot that HMAC_INIT has settled and HMAC_UPDATE fed is that of the procedures without settling. -/
theorem settle_updated_finish {Y : HmacContext} (n m : Nat) (o : Owner) {data : ByteString}
    (active : Y.inner.st = Status.active) (bound : Y.inner.total.toNat + data.length < 2 ^ 61) :
    HmacContext.finish { Y with inner := (Y.inner.settle n o).updated m o data } = (Y.absorb data).finish :=
  finish_view ((hview_iff _ _).mpr ⟨settle_updated_view n m o active bound, rfl, fun _ => rfl⟩)
    ((updated_st _ m o data).trans active)

/-- INIT, UPDATE, FINALIZE complete and end with the digest of the data. -/
theorem execAll_hash_sequence {s : State} {c : BitVec 8} {data : ByteString} (consistent : s.consistent = true)
    (exists_slot : c.toNat < s.ctx.length) (sendable : Sendable data) :
    ∃ u, execAll [.init c, .update c (BitVec.ofNat 32 data.length) data, .finalize c] s = .next u
      ∧ u.responses = s.responses ++ [.ok [], .ok [], .ok (messageDigest data)] := by
  have bound : 0 + data.length < 2 ^ 61 := by unfold Sendable at sendable; omega
  have slot := List.getElem?_eq_getElem exists_slot
  generalize s.ctx[c.toNat] = X at slot
  have run_init := exec_init consistent slot
  have started := afterInit_slot slot
  have run_update := exec_update (exec_consistent run_init) started rfl (lengthLegal_of_sendable sendable) bound
  have updated := afterUpdate_slot started data
  have active := updated_st (X.start.settle s.serial (.ctx c.toNat)) (s.serial + 1) (.ctx c.toNat) data
  have run_finalize := exec_finalize (exec_consistent run_update) updated active
  have view := settle_updated_view (X := X.start) s.serial (s.serial + 1) (.ctx c.toNat) rfl bound
  have digest := (finalize_view view active).trans (finalize_absorb_start X data (by omega))
  refine ⟨_, by rw [execAll_cons run_init, execAll_cons run_update, execAll_cons run_finalize, execAll], ?_⟩
  simp [State.afterFinalize, State.afterUpdate, State.afterInit, digest]

/-- HMAC_INIT, HMAC_UPDATE, HMAC_FINISH complete and end with the tag of the data. -/
theorem execAll_hmac_sequence {s : State} {h : BitVec 8} {key data : ByteString} (consistent : s.consistent = true)
    (exists_slot : h.toNat < s.hctx.length) (hkey : Sendable key) (hdata : Sendable data) :
    ∃ u, execAll [.hmacInit h (BitVec.ofNat 32 key.length) key, .hmacUpdate h (BitVec.ofNat 32 data.length) data,
        .hmacFinish h] s = .next u
      ∧ u.responses = s.responses ++ [.ok [], .ok [], .ok (messageTag key data)] := by
  have key_short : key.length < 2 ^ 31 := hkey
  have data_short : data.length < 2 ^ 31 := hdata
  have slot := List.getElem?_eq_getElem exists_slot
  generalize s.hctx[h.toNat] = Y at slot
  obtain ⟨-, -, -, total, active⟩ := absorb_pad Y.inner (padOf (keyBlock s.scr key) ipadByte)
  have bound : (Y.start s.scr key).inner.total.toNat + data.length < 2 ^ 61 := by
    rw [hmacStart_inner, total]; omega
  have run_init := exec_hmacInit consistent slot (lengthLegal_of_sendable hkey)
  have started := afterHmacInit_slot slot key
  have run_update := exec_hmacUpdate (exec_consistent run_init) started active (lengthLegal_of_sendable hdata) bound
  have updated := afterHmacUpdate_slot started data
  have still_active := (updated_st ((Y.start s.scr key).inner.settle s.serial (.inner h.toNat)) (s.serial + 1)
    (.inner h.toNat) data).trans active
  have run_finish := exec_hmacFinish (exec_consistent run_update) updated still_active
  have tag := (settle_updated_finish s.serial (s.serial + 1) (.inner h.toNat) active bound).trans
    (hmac_eq Y s.scr key data (by omega) (by omega))
  refine ⟨_, by rw [execAll_cons run_init, execAll_cons run_update, execAll_cons run_finish, execAll], ?_⟩
  rw [← tag]
  simp [State.afterHmacFinish, State.afterHmacUpdate, State.afterHmacInit]

/-! ### The composites -/

theorem exec_hash_answer {s : State} {data : ByteString} (consistent : s.consistent = true)
    (sendable : Sendable data) :
    ∃ t, exec (.hash (BitVec.ofNat 32 data.length) data) s = .next t ∧ Answered s t (messageDigest data) := by
  refine ⟨_, exec_hash consistent (lengthLegal_of_sendable sendable), ?_⟩
  unfold Sendable at sendable
  rw [Answered, State.afterHash, hash_eq_messageDigest s.scr data (by omega)]

theorem exec_hmac_answer {s : State} {key data : ByteString} (consistent : s.consistent = true)
    (hkey : Sendable key) (hdata : Sendable data) :
    ∃ t, exec (.hmac (BitVec.ofNat 32 key.length) (BitVec.ofNat 32 data.length) key data) s = .next t
      ∧ Answered s t (messageTag key data) := by
  refine ⟨_, exec_hmac consistent (lengthLegal_of_sendable hkey) (lengthLegal_of_sendable hdata), ?_⟩
  unfold Sendable at hkey hdata
  rw [Answered, State.afterHmac, hmac_eq s.hscr s.scr key data (by omega) (by omega)]

/-- Settles O35: composite and sequence both give the closed form, the digest of R187 and the tag of R225. -/
theorem compositesEqualTheirSequences : Obligations.CompositesEqualTheirSequences := by
  intro c h key data s consistent exists_ctx exists_hctx hkey hdata
  obtain ⟨t, hash, hash_answer⟩ := exec_hash_answer consistent hdata
  obtain ⟨u, hash_sequence, hash_responses⟩ := execAll_hash_sequence consistent exists_ctx hdata
  obtain ⟨t', hmac, hmac_answer⟩ := exec_hmac_answer consistent hkey hdata
  obtain ⟨u', hmac_sequence, hmac_responses⟩ := execAll_hmac_sequence consistent exists_hctx hkey hdata
  exact ⟨⟨t, u, _, hash, hash_answer, hash_sequence, hash_responses⟩,
    ⟨t', u', _, hmac, hmac_answer, hmac_sequence, hmac_responses⟩⟩

end Sys2Proof.Machine
end

section
/-! PROOF. The words of the compressor: rotation bit by bit and as a number, and from it the permutations, the boolean
functions and the round constants (40_compressor.md R131 to R137). -/

namespace Sys2Proof.Machine

/-! ### Rotation -/

/-- Bit `i` of a rotated word comes from `n mod 32` places below it, around the end of the word. -/
theorem getLsbD_rotl (x : Word) (n : Nat) {i : Nat} (hi : i < 32) :
    (rotl x n).getLsbD i = x.getLsbD ((i + (32 - n % 32)) % 32) := by
  rw [rotl, BitVec.getLsbD_rotateLeft, Nat.mod_mod]
  by_cases wrapped : i < n % 32
  · rw [decide_eq_true wrapped, cond_true]
    congr 1
    omega
  · rw [decide_eq_false wrapped, cond_false, decide_eq_true hi, Bool.true_and]
    congr 1
    omega

theorem getLsbD_rotl_moved (x : Word) (n : Nat) {i : Nat} (hi : i < 32) :
    (rotl x n).getLsbD ((i + n) % 32) = x.getLsbD i := by
  rw [getLsbD_rotl x n (Nat.mod_lt _ (by decide))]
  congr 1
  omega

theorem rotl_of_mod_eq_zero (x : Word) {n : Nat} (h : n % 32 = 0) : rotl x n = x := by
  apply BitVec.eq_of_getLsbD_eq
  intro i hi
  rw [getLsbD_rotl x n hi, h]
  congr 1
  omega

/-- The bits that stay inside the word and the bits that come around lie side by side, so their union is their sum. -/
theorem rotl_toNat_eq_sum (x : Word) (n : Nat) :
    (rotl x n).toNat = x.toNat * 2 ^ (n % 32) % 2 ^ 32 + x.toNat / 2 ^ (32 - n % 32) := by
  have width : (2 : Nat) ^ 32 = 2 ^ (32 - n % 32) * 2 ^ (n % 32) := by rw [← pow_add]; congr 1; omega
  have around : x.toNat / 2 ^ (32 - n % 32) < 2 ^ (n % 32) := Nat.div_lt_of_lt_mul (width ▸ x.isLt)
  have inside : x.toNat * 2 ^ (n % 32) % 2 ^ 32 = (x.toNat % 2 ^ (32 - n % 32)) <<< (n % 32) := by
    rw [width, Nat.mul_mod_mul_right, Nat.shiftLeft_eq]
  rw [rotl, BitVec.toNat_rotateLeft, Nat.mod_mod, Nat.shiftLeft_eq, Nat.shiftRight_eq_div_pow, inside,
    Nat.shiftLeft_add_eq_or_of_lt around]

theorem rotl_toNat (x : Word) (n : Nat) :
    (rotl x n).toNat =
      if n % 32 = 0 then x.toNat else x.toNat * 2 ^ (n % 32) % 2 ^ 32 + x.toNat / 2 ^ (32 - n % 32) := by
  split
  next whole_turns => rw [rotl_of_mod_eq_zero x whole_turns]
  next => exact rotl_toNat_eq_sum x n

/-- Settles O1: the formula and the movement of the bits hold for all words and counts; only the six examples are
computed. -/
theorem rotlMovesBitsCircularly : Obligations.RotlMovesBitsCircularly :=
  ⟨fun x n => ⟨rotl_toNat x n, fun _ inside => getLsbD_rotl_moved x n inside⟩,
    by decide, by decide, by decide, by decide, by decide, by decide⟩

theorem rotl_mod (x : Word) (n : Nat) : rotl x (n % 32) = rotl x n := by
  rw [rotl, rotl, Nat.mod_mod]

theorem rotl_rotl (x : Word) (m n : Nat) : rotl (rotl x m) n = rotl x (m + n) := by
  apply BitVec.eq_of_getLsbD_eq
  intro i hi
  rw [getLsbD_rotl _ n hi, getLsbD_rotl x m (Nat.mod_lt _ (by decide)), getLsbD_rotl x (m + n) hi]
  congr 1
  omega

theorem rotl_xor (x y : Word) (n : Nat) : rotl (x ^^^ y) n = rotl x n ^^^ rotl y n := by
  apply BitVec.eq_of_getLsbD_eq
  intro i hi
  simp only [BitVec.getLsbD_xor, getLsbD_rotl _ n hi]

/-! ### The permutations -/

theorem getLsbD_p0 (x : Word) {i : Nat} (hi : i < 32) :
    (p0 x).getLsbD i = (x.getLsbD i ^^ (x.getLsbD ((i + 23) % 32) ^^ x.getLsbD ((i + 15) % 32))) := by
  rw [p0, BitVec.getLsbD_xor, BitVec.getLsbD_xor, getLsbD_rotl x 9 hi, getLsbD_rotl x 17 hi, Bool.xor_assoc]

theorem getLsbD_p1 (x : Word) {i : Nat} (hi : i < 32) :
    (p1 x).getLsbD i = (x.getLsbD i ^^ (x.getLsbD ((i + 17) % 32) ^^ x.getLsbD ((i + 9) % 32))) := by
  rw [p1, BitVec.getLsbD_xor, BitVec.getLsbD_xor, getLsbD_rotl x 15 hi, getLsbD_rotl x 23 hi, Bool.xor_assoc]

theorem p0_xor (x y : Word) : p0 (x ^^^ y) = p0 x ^^^ p0 y := by
  rw [p0, rotl_xor, rotl_xor, p0, p0]
  ac_rfl

theorem p1_xor (x y : Word) : p1 (x ^^^ y) = p1 x ^^^ p1 y := by
  rw [p1, rotl_xor, rotl_xor, p1, p1]
  ac_rfl

/-- Settles O2: the bits come from those of the rotations, the linearity from that of a rotation. -/
theorem permutationsAreLinear : Obligations.PermutationsAreLinear :=
  fun x y _ inside => ⟨getLsbD_p0 x inside, getLsbD_p1 x inside, p0_xor x y, p1_xor x y⟩

/-! ### The boolean functions -/

theorem ff_early {j : Nat} (h : j ≤ 15) (x y z : Word) : ff j x y z = x ^^^ y ^^^ z := if_pos h

theorem gg_early {j : Nat} (h : j ≤ 15) (x y z : Word) : gg j x y z = x ^^^ y ^^^ z := if_pos h

theorem majority_bit (a b c : Bool) :
    (a && b || a && c || b && c) = decide (2 ≤ a.toNat + b.toNat + c.toNat) := by
  revert a b c
  decide

theorem choose_bit (a b c : Bool) : (a && b || !a && c) = if a then b else c := by
  cases a <;> simp

theorem getLsbD_ff_late {j : Nat} (h : 16 ≤ j) (x y z : Word) (i : Nat) :
    (ff j x y z).getLsbD i
      = decide (2 ≤ (x.getLsbD i).toNat + (y.getLsbD i).toNat + (z.getLsbD i).toNat) := by
  rw [ff, if_neg (by omega)]
  simp only [BitVec.getLsbD_or, BitVec.getLsbD_and, majority_bit]

theorem getLsbD_gg_late {j : Nat} (h : 16 ≤ j) (x y z : Word) {i : Nat} (hi : i < 32) :
    (gg j x y z).getLsbD i = if x.getLsbD i then y.getLsbD i else z.getLsbD i := by
  rw [gg, if_neg (by omega)]
  simp only [BitVec.getLsbD_or, BitVec.getLsbD_and, BitVec.getLsbD_not, decide_eq_true hi, Bool.true_and, choose_bit]

/-- Settles O3: the formulas of R135 and R136, the spec's general knowledge (93_implementation_defined.md G2; assumption
log 12), read bit by bit. -/
theorem booleanFunctionsSplitAtRound16 : Obligations.BooleanFunctionsSplitAtRound16 :=
  fun _ x y z _ =>
    ⟨fun early => ⟨ff_early early x y z, gg_early early x y z⟩,
      fun late i inside => ⟨getLsbD_ff_late late x y z i, getLsbD_gg_late late x y z inside⟩⟩

/-! ### The round constants -/

theorem roundConstant_early {j : Nat} (h : j ≤ 15) : roundConstant j = rotl tbase0 j := by
  rw [roundConstant, if_pos h, rotl_mod]

theorem roundConstant_late {j : Nat} (h : 16 ≤ j) : roundConstant j = rotl tbase1 j := by
  rw [roundConstant, if_neg (by omega), rotl_mod]

theorem roundConstant_add_32 {j : Nat} (h : 16 ≤ j) : roundConstant (j + 32) = roundConstant j := by
  rw [roundConstant_late (by omega), roundConstant_late h, ← rotl_mod, Nat.add_mod_right, rotl_mod]

/-- The rotation by `j` of R137 is one more place each round, until round 16 takes the other base. -/
theorem roundConstant_succ {j : Nat} (h : j ≠ 15) : roundConstant (j + 1) = rotl (roundConstant j) 1 := by
  by_cases early : j ≤ 15
  · rw [roundConstant_early (by omega : j + 1 ≤ 15), roundConstant_early early, rotl_rotl]
  · rw [roundConstant_late (by omega : 16 ≤ j + 1), roundConstant_late (by omega : 16 ≤ j), rotl_rotl]

/-- Settles O4: the table is computed; its two consequences are laws of the rotation. -/
theorem roundConstantTable : Obligations.RoundConstantTable :=
  ⟨by decide, fun _ from16 _ => roundConstant_add_32 from16, fun _ _ not15 => roundConstant_succ not15⟩

end Sys2Proof.Machine
end

section
/-! PROOF. The compressor datapath: the message schedule by its recurrence, the rounds by their equations, and that
neither reads what the datapath held before (40_compressor.md R138 to R148; 10_state.md R37, R39). -/

namespace Sys2Proof.Machine

/-! ### The elements of a schedule -/

theorem element_ofFn {n : Nat} (f : Fin n → Word) {i : Nat} (hi : i < n) : element (Vector.ofFn f) i = f ⟨i, hi⟩ := by
  simp [element, hi]

theorem element_stored_self {n : Nat} (W : Vector Word n) {j : Nat} (hj : j < n) (a : Word) :
    element (stored W j a) j = a := by
  simp [element, stored_eq, hj]

theorem element_stored_ne {n : Nat} (W : Vector Word n) {i j : Nat} (h : i ≠ j) (a : Word) :
    element (stored W j a) i = element W i := by
  rw [element, stored_eq, Vector.getElem?_setIfInBounds, if_neg h.symm, element]

/-- The elements at the indices the rules use are all of a schedule. -/
theorem eq_of_element_eq {n : Nat} {W W' : Vector Word n} (h : ∀ i, i < n → element W i = element W' i) : W = W' := by
  apply Vector.ext
  intro i hi
  simpa [element, hi] using h i hi

theorem element_parsedWords (block : Block) (W : Vector Word 68) {i : Nat} (hi : i < 16) :
    element (parsedWords block W) i = wordAt block.toList (4 * i) := by
  rw [parsedWords, element_ofFn _ (by omega)]
  exact if_pos hi

theorem element_derivedWords (W : Vector Word 68) {j : Nat} (hj : j < 64) :
    element (derivedWords W) j = element W j ^^^ element W (j + 4) := by
  rw [derivedWords, element_ofFn _ hj]

/-! ### The expansion -/

/-- The taps of the recurrence lie before the word it gives. -/
theorem expandedWord_congr {W W' : Vector Word 68} {j : Nat} (hj : 16 ≤ j)
    (h : ∀ i, i < j → element W i = element W' i) : expandedWord W j = expandedWord W' j := by
  simp only [expandedWord, h (j - 16) (by omega), h (j - 9) (by omega), h (j - 3) (by omega),
    h (j - 13) (by omega), h (j - 6) (by omega)]

/-- Expansion from index `a` on leaves the words before `a`. -/
theorem element_foldl_expandAt_of_lt (d : Datapath) {a i : Nat} (n : Nat) (hi : i < a) :
    element ((List.range' a n).foldl Datapath.expandAt d).W i = element d.W i := by
  induction n generalizing d a with
  | zero => rfl
  | succ n ih =>
    rw [List.range'_succ, List.foldl_cons, ih (d.expandAt a) (by omega), expandAt_W]
    exact element_stored_ne d.W (by omega) _

/-- Each word is written once, from words that are not written any more, so the recurrence holds of the finished
schedule. -/
theorem element_foldl_expandAt (d : Datapath) {a j : Nat} (n : Nat) (from16 : 16 ≤ a) (upTo67 : a + n ≤ 68)
    (aj : a ≤ j) (jn : j < a + n) :
    element ((List.range' a n).foldl Datapath.expandAt d).W j
      = expandedWord ((List.range' a n).foldl Datapath.expandAt d).W j := by
  induction n generalizing d a with
  | zero => omega
  | succ n ih =>
    rw [List.range'_succ, List.foldl_cons]
    obtain rfl | later := Nat.eq_or_lt_of_le aj
    · have written : element (d.expandAt a).W a = expandedWord d.W a := element_stored_self d.W (by omega) _
      rw [element_foldl_expandAt_of_lt _ n (Nat.lt_succ_self a), written]
      apply expandedWord_congr from16
      intro i hi
      rw [element_foldl_expandAt_of_lt _ n (by omega)]
      exact (element_stored_ne d.W (by omega) _).symm
    · exact ih (d.expandAt a) (by omega) (by omega) later (by omega)

theorem element_expand_of_lt (d : Datapath) {i : Nat} (hi : i < 16) : element d.expand.W i = element d.W i :=
  element_foldl_expandAt_of_lt d 52 hi

theorem element_expand (d : Datapath) {j : Nat} (from16 : 16 ≤ j) (upTo67 : j ≤ 67) :
    element d.expand.W j = expandedWord d.expand.W j :=
  element_foldl_expandAt d 52 le_rfl (by decide) from16 (by omega)

/-! ### Before round 0 -/

section prepare

variable (d : Datapath) (V : HashState) (block : Block)

theorem prepare_W : (d.prepare V block).W = (d.parse block).expand.W := rfl

theorem prepare_W1 : (d.prepare V block).W1 = derivedWords (d.prepare V block).W := rfl

theorem element_prepare_W_of_lt {i : Nat} (hi : i < 16) :
    element (d.prepare V block).W i = wordAt block.toList (4 * i) := by
  rw [prepare_W, element_expand_of_lt _ hi]
  exact element_parsedWords block d.W hi

theorem element_prepare_W {j : Nat} (from16 : 16 ≤ j) (upTo67 : j ≤ 67) :
    element (d.prepare V block).W j = expandedWord (d.prepare V block).W j :=
  element_expand (d.parse block) from16 upTo67

theorem element_prepare_W1 {j : Nat} (hj : j < 64) :
    element (d.prepare V block).W1 j = element (d.prepare V block).W j ^^^ element (d.prepare V block).W (j + 4) := by
  rw [prepare_W1, element_derivedWords _ hj]

end prepare

/-- Settles O5: PARSE gives the first 16 words, EXPAND the others, and no later phase writes a schedule again. The taps
and the order of the variables are the spec's general knowledge (93_implementation_defined.md G1, G4; assumption
log 12). -/
theorem scheduleFollowsRecurrence : Obligations.ScheduleFollowsRecurrence := by
  intro d V block
  exact ⟨fun _ inside => element_prepare_W_of_lt d V block inside,
    fun _ from16 upTo67 => element_prepare_W d V block from16 upTo67,
    fun _ inside => element_prepare_W1 d V block inside,
    rfl, rfl, rfl, rfl, rfl, rfl, rfl, rfl⟩

/-! ### The rounds -/

section rounds

variable (d : Datapath) (n : Nat)

theorem iterate_round_W : (Datapath.round^[n] d).W = d.W := by
  induction n with
  | zero => rfl
  | succ n ih => rw [Function.iterate_succ_apply', round_W, ih]

theorem iterate_round_W1 : (Datapath.round^[n] d).W1 = d.W1 := by
  induction n with
  | zero => rfl
  | succ n ih => rw [Function.iterate_succ_apply', round_W1, ih]

end rounds

/-- The counter does not wrap around: it counts to 64 and has 7 bits (10_state.md R37). -/
theorem iterate_round_prepare_j (d : Datapath) (V : HashState) (block : Block) {n : Nat} (hn : n ≤ 64) :
    (Datapath.round^[n] (d.prepare V block)).j.toNat = n := by
  induction n with
  | zero => rfl
  | succ n ih =>
    rw [Function.iterate_succ_apply', round_j, BitVec.toNat_add, ih (by omega)]
    exact Nat.mod_eq_of_lt (show n + 1 < 128 by omega)

theorem round_A {d : Datapath} {j : Nat} (counter : d.j.toNat = j) :
    d.round.A = ff j d.A d.B d.C + d.D + (rotl (rotl d.A 12 + d.E + roundConstant j) 7 ^^^ rotl d.A 12)
      + element d.W1 j := by
  subst counter
  rfl

theorem round_E {d : Datapath} {j : Nat} (counter : d.j.toNat = j) :
    d.round.E = p0 (gg j d.E d.F d.G + d.H + rotl (rotl d.A 12 + d.E + roundConstant j) 7 + element d.W j) := by
  subst counter
  rfl

/-- Settles O6: a run is the iterated round, whose counter and schedules are known before each round. The equations are
the spec's general knowledge (93_implementation_defined.md G3; assumption log 12). -/
theorem roundsFollowEquations : Obligations.RoundsFollowEquations := by
  intro d V block at_
  refine ⟨rfl, iterate_round_prepare_j d V block le_rfl, fun j hj => ?_⟩
  have counter : (at_ j).j.toNat = j := iterate_round_prepare_j d V block (Nat.le_of_lt hj)
  have next : at_ (j + 1) = (at_ j).round := Function.iterate_succ_apply' _ _ _
  rw [← iterate_round_W1 (d.prepare V block) j, ← iterate_round_W (d.prepare V block) j, next]
  exact ⟨counter, rfl, rfl, rfl, round_A counter, rfl, rfl, rfl, round_E counter⟩

/-! ### What a compression reads -/

/-- The recurrence determines the schedule from the block alone. -/
theorem prepare_W_congr (d d' : Datapath) (V : HashState) (block : Block) :
    (d.prepare V block).W = (d'.prepare V block).W := by
  apply eq_of_element_eq
  intro j
  induction j using Nat.strong_induction_on with
  | h j ih =>
    intro hj
    by_cases parsed : j < 16
    · rw [element_prepare_W_of_lt d V block parsed, element_prepare_W_of_lt d' V block parsed]
    · rw [element_prepare_W d V block (by omega) (by omega), element_prepare_W d' V block (by omega) (by omega)]
      exact expandedWord_congr (by omega) fun i hi => ih i hi (by omega)

theorem seed_congr {d d' : Datapath} (V : HashState) (W : d.W = d'.W) (W1 : d.W1 = d'.W1) : d.seed V = d'.seed V := by
  rw [Datapath.seed, W, W1, Datapath.seed]

/-- Every register is written before round 0 reads it (10_state.md R39). -/
theorem prepare_congr (d d' : Datapath) (V : HashState) (block : Block) : d.prepare V block = d'.prepare V block := by
  have W := prepare_W_congr d d' V block
  have W1 : (d.prepare V block).W1 = (d'.prepare V block).W1 := by rw [prepare_W1, prepare_W1, W]
  exact seed_congr V W W1

theorem compress_eq_feedForward (d : Datapath) (V : HashState) (block : Block) :
    compress V block = feedForward V (d.run V block) := by
  rw [compress, Datapath.run, prepare_congr Datapath.blank d, Datapath.run]

/-- Settles O7: the run does not read the contents it starts from, and `compress` is the feed-forward of the run from
blank contents. The pairing of `V[0]` to `V[7]` with `A` to `H` is the spec's general knowledge
(93_implementation_defined.md G4; PRESUMED, assumption log 12). -/
theorem compressReadsOnlyItsArguments : Obligations.CompressReadsOnlyItsArguments := compress_eq_feedForward

/-! ### The command -/

/-- Settles O23: without a violated assertion COMPRESS leaves `State.afterCompress`, which differs from the state before
in the datapath, the responses and the serial number only. -/
theorem compressCompletes : Obligations.CompressCompletes :=
  fun V block _ consistent =>
    ⟨_, exec_compress V block consistent, rfl, ⟨rfl, rfl, rfl⟩, rfl, rfl⟩

end Sys2Proof.Machine
end

section
/-! PROOF. The procedures INIT, UPDATE, FINALIZE and HASH: what one append stores and where the padding ends
(41_streaming_hasher.md R180, R185; 70_reset_and_hazards.md R291), then that each command completes and with what
(R181 to R183, R185 to R187, R189), down to the source's first known answer. -/

namespace Sys2Proof.Machine

/-! ### One append -/

theorem byteAt_stored_self (buf : Block) {i : Nat} (inside : i < 64) (b : Byte) :
    byteAt (stored buf i b).toList i = b := by
  simp [byteAt, stored_eq, inside]

theorem byteAt_stored_ne (buf : Block) {a i : Nat} (other : a ≠ i) (b : Byte) :
    byteAt (stored buf i b).toList a = byteAt buf.toList a := by
  simp [byteAt, stored_eq, Vector.toList_setIfInBounds, List.getElem?_set_ne other.symm]

theorem fill_eq_63_iff (X : Context) : X.fill = 63 ↔ X.fill.toNat = 63 :=
  BitVec.toNat_inj.symm

/-- The 64th byte compresses the buffer it has just been stored in (41_streaming_hasher.md R180). -/
theorem append_V_of_full {X : Context} (full : X.fill = 63) (b : Byte) :
    (X.append b).V = compress X.V (X.append b).buf := by
  rw [append_buf, Context.append, if_pos full]

/-- Settles O21: the store is one element of `buf`, and whether it is the 64th decides the rest. -/
theorem appendStoresOneByte : Obligations.AppendStoresOneByte := by
  intro X b
  refine ⟨?_, fun a other => ?_, append_total X b, append_st X b, fun full => ?_, fun notFull => ?_⟩
  · rw [append_buf]
    exact byteAt_stored_self X.buf X.fill.isLt b
  · rw [append_buf]
    exact byteAt_stored_ne X.buf other b
  · have full := (fill_eq_63_iff X).mpr full
    obtain ⟨-, emptied, -⟩ := append_of_eq full b
    exact ⟨congrArg BitVec.toNat emptied, append_V_of_full full b⟩
  · obtain ⟨V, fill, -⟩ := append_of_ne (mt (fill_eq_63_iff X).mp notFull) b
    exact ⟨fill, V⟩

/-! ### The padding -/

/-- 63 zeros are enough: the loop appends `(120 - fill) mod 64` of them (70_reset_and_hazards.md R291). -/
theorem zeroPad_fill (X : Context) : (Context.zeroPad 63 X).fill.toNat = 56 := by
  have fill_lt := X.fill.isLt
  obtain ⟨-, -, fill⟩ := appendAll_block X (List.replicate ((120 - X.fill.toNat) % 64) 0x00)
  rw [zeroPad_eq_appendAll 63 X (by omega), fill, List.length_append, content_length, List.length_replicate]
  omega

theorem pad_total (X : Context) : X.pad.total = X.total := by
  rw [pad_eq_appendAll, appendAll_total]

/-- Settles O22: the zero loop from any Context, and the padding as one append of whole blocks. -/
theorem finalizePaddingEndsOnBlockBoundary : Obligations.FinalizePaddingEndsOnBlockBoundary := by
  intro X
  obtain ⟨-, emptied, -⟩ := pad_spec X
  exact ⟨zeroPad_fill X, emptied, pad_total X⟩

/-! ### The commands complete -/

/-- A command that writes plain slot `c` and leaves the other slots and the host's moves alone. -/
theorem onlyCtxChanged_of_set {s t : State} {c : Nat} {X : Context} (ctx : t.ctx = s.ctx.set c X)
    (hctx : t.hctx = s.hctx) (input : t.input = s.input) : OnlyCtxChanged s t c := by
  refine ⟨by rw [ctx, List.length_set], fun d other => ?_, hctx, input⟩
  rw [ctx, List.getElem?_set_ne other.symm]

/-- Settles O24: whatever slot `c` held, INIT leaves `State.afterInit`. -/
theorem initCompletes : Obligations.InitCompletes := by
  intro c s consistent exists_slot
  have slot := List.getElem?_eq_getElem exists_slot
  exact ⟨_, _, exec_init consistent slot, afterInit_slot slot, rfl, rfl, rfl, rfl, rfl,
    onlyCtxChanged_of_set rfl rfl rfl, rfl, rfl, rfl⟩

/-- The choice of assumption log 20. -/
theorem updated_nil (X : Context) (n : Nat) (o : Owner) : X.updated n o [] = X := rfl

/-- The choice of assumption log 10: the datapath of an UPDATE that completes no block. -/
theorem afterUpdate_datapath {s : State} {X : Context} {data : ByteString} (c : BitVec 8)
    (noBlock : X.fill.toNat + data.length < 64) : (s.afterUpdate c X data).datapath = s.datapath := by
  have unused : X.fillsBlock data = false := decide_eq_false (by omega)
  simp [State.afterUpdate, unused]

/-- Settles O25: an admitted UPDATE leaves `State.afterUpdate`, whose slot has absorbed the data in block form. -/
theorem updateCompletes : Obligations.UpdateCompletes := by
  intro c len data s X consistent slot active short exact_length bound
  have legal := (lengthLegal_iff len data).mpr ⟨short, exact_length⟩
  refine ⟨_, _, exec_update consistent slot active legal bound, afterUpdate_slot slot data,
    updated_absorbedTo _ _ bound, ?_, rfl, onlyCtxChanged_of_set rfl rfl rfl, rfl, rfl, afterUpdate_datapath c⟩
  rintro rfl
  exact updated_nil X _ _

theorem afterFinalize_slot {s : State} {c : BitVec 8} {X : Context} (slot : s.ctx[c.toNat]? = some X) :
    (s.afterFinalize c X).ctx[c.toNat]? = some (Context.unspecified s.serial (.ctx c.toNat) Status.final) :=
  set_slot slot _

theorem afterFinalize_answered (s : State) (c : BitVec 8) (X : Context) :
    Answered s (s.afterFinalize c X) (finalDigest X) := by
  rw [Answered, ← finalize_eq_finalDigest]
  rfl

/-- Settles O26: an admitted FINALIZE leaves `State.afterFinalize`, and what it answers is the padding of R186 in closed
form. -/
theorem finalizeCompletes : Obligations.FinalizeCompletes := by
  intro c s X consistent slot active
  exact ⟨_, _, exec_finalize consistent slot active, afterFinalize_slot slot, rfl, afterFinalize_answered s c X,
    onlyCtxChanged_of_set rfl rfl rfl, rfl, rfl⟩

theorem afterHash_answered (s : State) {data : ByteString} (short : data.length < 2 ^ 64) :
    Answered s (s.afterHash data) (messageDigest data) := by
  rw [Answered, ← hash_eq_messageDigest s.scr data short]
  rfl

/-- Settles O27: HASH leaves `State.afterHash`, and the closed digest does not depend on the scratch Context. -/
theorem hashCompletes : Obligations.HashCompletes := by
  intro len data s consistent short exact_length
  have legal := (lengthLegal_iff len data).mpr ⟨short, exact_length⟩
  exact ⟨_, exec_hash consistent legal, afterHash_answered s (by omega), ⟨rfl, rfl, rfl⟩, rfl⟩

/-! ### The known answer -/

/-- The digest of "abc", evaluated in the closed form of R187, in which no unspecified content stands. -/
theorem messageDigest_abc : messageDigest [0x61, 0x62, 0x63] =
    [0x66, 0xc7, 0xf0, 0xf4, 0x62, 0xee, 0xed, 0xd9, 0xd1, 0xf2, 0xd4, 0x6b, 0xdc, 0x10, 0xe4, 0xe2,
      0x41, 0x67, 0xc4, 0x87, 0x5c, 0xf2, 0xf7, 0xa2, 0x29, 0x7d, 0xa0, 0x2b, 0x8f, 0x4b, 0xa8, 0xe0] := by
  decide +kernel

theorem decode_hash_abc : decode [0x50, 0x00, 0x00, 0x00, 0x00, 0x00, 0x00, 0x03, 0x61, 0x62, 0x63]
    = .ok (.hash 3 [0x61, 0x62, 0x63]) := by
  decide +kernel

/-- No slot is active after reset, so no assertion is violated. -/
theorem reset_consistent : State.reset.consistent = true := rfl

/-- Settles O54: the packet decodes to HASH "abc", which completes after reset with the digest. -/
theorem knownAnswerAbc : Obligations.KnownAnswerAbc := by
  obtain ⟨t, run, answered, -⟩ :=
    hashCompletes 3 [0x61, 0x62, 0x63] { State.reset with input := [] } reset_consistent (by decide) rfl
  refine ⟨t, (stepRunsDecodedCommand _ _ [] _ rfl decode_hash_abc).trans run, ?_⟩
  rw [answered, messageDigest_abc]
  rfl

end Sys2Proof.Machine
end

section
/-! PROOF. Runs of commands on one plain slot: any cutting of a message into UPDATEs absorbs the same as one, so the
streamed digest is that of the message (41_streaming_hasher.md R184, R187; 20_memory.md R67). -/

namespace Sys2Proof.Machine

/-! ### Absorbing nothing, and absorbing into a settled slot -/

theorem absorbedTo_nil (X : Context) : AbsorbedTo X [] X :=
  absorb_spec X [] X.total.isLt

theorem absorbedTo_st {X A : Context} {data : ByteString} (h : AbsorbedTo X data A) : A.st = X.st := by
  obtain ⟨-, -, -, -, st⟩ := h
  exact st

theorem absorbedTo_of_settled {X A : Context} {data : ByteString} {n : Nat} {o : Owner}
    (h : AbsorbedTo (X.settle n o) data A) : AbsorbedTo X data A := by
  unfold AbsorbedTo at h ⊢
  rwa [settle_content] at h

/-! ### A run of UPDATEs -/

theorem execAll_append {is : List Instr} {s t : State} (h : execAll is s = .next t) (js : List Instr) :
    execAll (is ++ js) s = execAll js t := by
  induction is generalizing s with
  | nil => cases h; rfl
  | cons i is ih =>
    rw [execAll] at h
    rw [List.cons_append, execAll]
    split at h
    · exact ih h
    · cases h
    · cases h

/-- From `s`, where plain slot `c` holds `X`, the UPDATEs of the pieces lead to `t`: the slot has absorbed the pieces
together, and each UPDATE was answered `OK`. -/
structure FedTo (s t : State) (c : BitVec 8) (X : Context) (pieces : List ByteString) : Prop where
  run : execAll (updatesOf c pieces) s = .next t
  consistent : t.consistent = true
  slot : ∃ X', t.ctx[c.toNat]? = some X' ∧ AbsorbedTo X pieces.flatten X'
  responses : t.responses = s.responses ++ pieces.map fun _ => .ok []

theorem fedTo_nil {s : State} {c : BitVec 8} {X : Context} (consistent : s.consistent = true)
    (slot : s.ctx[c.toNat]? = some X) : FedTo s s c X [] where
  run := rfl
  consistent := consistent
  slot := ⟨X, slot, absorbedTo_nil X⟩
  responses := (List.append_nil _).symm

/-- One UPDATE more in front: absorbing a piece and then the others is absorbing them together. -/
theorem fedTo_cons {s t : State} {c : BitVec 8} {X : Context} {M : ByteString} {pieces : List ByteString}
    (run : exec (.update c (BitVec.ofNat 32 M.length) M) s = .next (s.afterUpdate c X M))
    (bound : X.total.toNat + M.length < 2 ^ 61)
    (rest : FedTo (s.afterUpdate c X M) t c (X.updated s.serial (.ctx c.toNat) M) pieces) :
    FedTo s t c X (M :: pieces) where
  run := (execAll_cons run _).trans rest.run
  consistent := rest.consistent
  slot := by
    obtain ⟨X', slot, absorbed⟩ := rest.slot
    exact ⟨X', slot, absorbedTo_trans (updated_absorbedTo _ _ bound) absorbed⟩
  responses := by simp [rest.responses, State.afterUpdate]

/-- Sendable pieces that are admitted together are admitted one by one. -/
theorem exists_fedTo {c : BitVec 8} {pieces : List ByteString} {s : State} {X : Context}
    (consistent : s.consistent = true) (slot : s.ctx[c.toNat]? = some X) (active : X.st = Status.active)
    (sendable : ∀ M ∈ pieces, Sendable M) (bound : X.total.toNat + pieces.flatten.length < 2 ^ 61) :
    ∃ t, FedTo s t c X pieces := by
  induction pieces generalizing s X with
  | nil => exact ⟨s, fedTo_nil consistent slot⟩
  | cons M pieces ih =>
    obtain ⟨sendM, sendRest⟩ := List.forall_mem_cons.mp sendable
    rw [List.flatten_cons, List.length_append] at bound
    have boundM : X.total.toNat + M.length < 2 ^ 61 := by omega
    have run := exec_update consistent slot active (lengthLegal_of_sendable sendM) boundM
    obtain ⟨-, -, -, total, st⟩ := updated_absorbedTo s.serial (.ctx c.toNat) boundM
    obtain ⟨t, rest⟩ := ih (exec_consistent run) (afterUpdate_slot slot M) (st.trans active) sendRest
      (by rw [total]; omega)
    exact ⟨t, fedTo_cons run boundM rest⟩

theorem sendable_of_mem_flatten {pieces : List ByteString} (h : Sendable pieces.flatten) {M : ByteString}
    (mem : M ∈ pieces) : Sendable M :=
  (List.sublist_flatten_of_mem mem).length_le.trans_lt h

/-- Settles O32: both runs leave a slot that has absorbed the concatenation, which fixes all that is defined of it. -/
theorem chunkedUpdatesEqualOne : Obligations.ChunkedUpdatesEqualOne := by
  intro c pieces s X consistent slot active sendable bound
  have whole : [pieces.flatten].flatten = pieces.flatten := List.flatten_singleton
  obtain ⟨t, chunked⟩ := exists_fedTo consistent slot active (fun _ => sendable_of_mem_flatten sendable) bound
  obtain ⟨u, single⟩ := exists_fedTo (pieces := [pieces.flatten]) consistent slot active
    (fun _ => sendable_of_mem_flatten (by rwa [whole])) (by rwa [whole])
  obtain ⟨A, slotA, absorbedA⟩ := chunked.slot
  obtain ⟨B, slotB, absorbedB⟩ := single.slot
  rw [whole] at absorbedB
  exact ⟨t, u, chunked.run, single.run, by rw [slotA, slotB, Option.map_some, Option.map_some,
    absorbedTo_unique absorbedA absorbedB]⟩

/-! ### The streamed digest -/

/-- Settles O33: INIT leaves an active slot of total 0, the UPDATEs absorb the message into it, and FINALIZE answers
with the digest of what was absorbed since INIT. -/
theorem streamedDigest : Obligations.StreamedDigest := by
  intro c pieces s consistent exists_slot sendable bound
  have slot := List.getElem?_eq_getElem exists_slot
  generalize s.ctx[c.toNat] = X at slot
  have run_init := exec_init consistent slot
  obtain ⟨t, fed⟩ := exists_fedTo (exec_consistent run_init) (afterInit_slot slot) rfl sendable
    ((Nat.zero_add _).trans_lt bound)
  obtain ⟨A, slotA, absorbed⟩ := fed.slot
  have active := absorbedTo_st absorbed
  have digest := finalDigest_of_absorbed (absorbedTo_of_settled absorbed) (by omega)
  have run_finalize := exec_finalize fed.consistent slotA active
  refine ⟨t.afterFinalize c A, ?_, ?_⟩
  · rw [List.cons_append, execAll_cons run_init, execAll_append fed.run, execAll_cons run_finalize, execAll]
  · rw [afterFinalize_answered, digest, fed.responses]
    simp [State.afterInit]

end Sys2Proof.Machine
end

section
/-! PROOF. Interleaving: a class of commands that sees and changes only what `shown` shows of the state gets, among any
other commands, the responses it would get alone; from it the plain slots (41_streaming_hasher.md R190; 10_state.md
R44). -/

namespace Sys2Proof.Machine

/-! ### Commands that run as they would alone -/

/-- `t` follows `s` and `t'` follows `s'` with the same response, and `shown` does not tell `t` and `t'` apart. -/
def StepsAlike {α : Type} (shown : State → α) (s s' t t' : State) : Prop :=
  shown t = shown t' ∧ ∃ r, t.responses = s.responses ++ [r] ∧ t'.responses = s'.responses ++ [r]

/-- The commands `own` picks depend on what `shown` shows of the state and on nothing else, and no other command changes
it. -/
structure RunsOn {α : Type} (own : Instr → Bool) (shown : State → α) : Prop where
  alike : ∀ {i s s'}, own i = true → s.consistent = s'.consistent → shown s = shown s' →
    OutcomeRel (StepsAlike shown s s') (exec i s) (exec i s')
  kept : ∀ {i s t}, own i = false → exec i s = .next t → shown t = shown s

theorem execAll_cons_eq_next {i : Instr} {is : List Instr} {s t : State} (h : execAll (i :: is) s = .next t) :
    ∃ s₁, exec i s = .next s₁ ∧ execAll is s₁ = .next t := by
  rw [execAll] at h
  split at h
  · exact ⟨_, ‹_›, h⟩
  · cases h
  · cases h

theorem responsesTo_append (p : Instr → Bool) (is : List Instr) (before answers : List Response) :
    responsesTo p is before (before ++ answers) = responsesTo p is [] answers := by
  simp [responsesTo]

theorem responsesTo_cons_own {p : Instr → Bool} {i : Instr} (own : p i = true) (is : List Instr) (r : Response)
    (answers : List Response) : responsesTo p (i :: is) [] (r :: answers) = r :: responsesTo p is [] answers := by
  simp [responsesTo, own]

theorem responsesTo_cons_other {p : Instr → Bool} {i : Instr} (other : p i = false) (is : List Instr) (r : Response)
    (answers : List Response) : responsesTo p (i :: is) [] (r :: answers) = responsesTo p is [] answers := by
  simp [responsesTo, other]

/-- The run of the own commands alone, from `u`, keeps step with the whole run, from `s`: an own command is made in both
and answered alike, another in the whole run only. -/
theorem execAll_filter_own {α : Type} {own : Instr → Bool} {shown : State → α} (runs : RunsOn own shown)
    {is : List Instr} {s t u : State} (h : execAll is s = .next t)
    (consistent : s.consistent = true → u.consistent = true) (same : shown u = shown s) :
    ∃ u' answers, execAll (is.filter own) u = .next u' ∧ shown u' = shown t
      ∧ t.responses = s.responses ++ answers ∧ u'.responses = u.responses ++ responsesTo own is [] answers := by
  induction is generalizing s u with
  | nil => cases h; exact ⟨u, [], rfl, same, by simp, by simp [responsesTo]⟩
  | cons i is ih =>
    obtain ⟨s₁, run, rest⟩ := execAll_cons_eq_next h
    have s_consistent := (exec_eq_next run).1
    have u_consistent := consistent s_consistent
    cases hi : own i with
    | true =>
      have alike := runs.alike hi (u_consistent.trans s_consistent.symm) same
      rw [run] at alike
      obtain ⟨u₁, run', same₁, r, u_answer, s_answer⟩ := outcome_of_rel_next alike
      obtain ⟨u', answers, alone, same', t_answers, u_answers⟩ := ih rest (fun _ => exec_consistent run') same₁
      refine ⟨u', r :: answers, ?_, same', ?_, ?_⟩
      · rw [List.filter_cons_of_pos hi, execAll_cons run', alone]
      · rw [t_answers, s_answer, List.append_assoc, List.singleton_append]
      · rw [u_answers, u_answer, List.append_assoc, List.singleton_append, responsesTo_cons_own hi]
    | false =>
      obtain ⟨-, r, s_answer, -⟩ := exec_addsResponse run
      obtain ⟨u', answers, alone, same', t_answers, u_answers⟩ :=
        ih rest (fun _ => u_consistent) (same.trans (runs.kept hi run).symm)
      refine ⟨u', r :: answers, ?_, same', ?_, ?_⟩
      · rw [List.filter_cons_of_neg (by simp [hi]), alone]
      · rw [t_answers, s_answer, List.append_assoc, List.singleton_append]
      · rw [u_answers, responsesTo_cons_other hi]

/-- `execAll_filter_own` from one state, with the responses as the statements on interleaving write them. -/
theorem execAll_filter_own_self {α : Type} {own : Instr → Bool} {shown : State → α} (runs : RunsOn own shown)
    {is : List Instr} {s t : State} (h : execAll is s = .next t) :
    ∃ u, execAll (is.filter own) s = .next u ∧ shown u = shown t
      ∧ responsesTo own is s.responses t.responses = u.responses.drop s.responses.length := by
  obtain ⟨u, answers, alone, same, t_answers, u_answers⟩ := execAll_filter_own runs h id rfl
  exact ⟨u, alone, same, by rw [t_answers, u_answers, responsesTo_append, List.drop_left]⟩

/-! ### The commands of a plain slot -/

/-- What is defined of plain slot `c`; none if there is no such slot. -/
def State.shownCtx (c : Nat) (s : State) : Option ContextView := s.ctx[c]?.map Context.view

theorem set_slot_view (l : List Context) (c : Nat) (X : Context) :
    (l.set c X)[c]?.map Context.view = (l[c]?.map Context.view).map fun _ => X.view := by
  rw [List.getElem?_set_self', Option.map_map]
  cases l[c]? <;> rfl

section alike

variable {c : Nat} {s s' : State} (same : s.shownCtx c = s'.shownCtx c)
include same

theorem rejected_stepsAlike : StepsAlike (State.shownCtx c) s s' s.rejected s'.rejected := ⟨same, _, rfl, rfl⟩

/-- A command that writes slot `c` alike and answers alike. -/
theorem complete_putCtx_stepsAlike {X X' : Context} (view : X.view = X'.view) (used used' : Bool)
    {out out' : ByteString} (sameOut : out = out') :
    OutcomeRel (StepsAlike (State.shownCtx c) s s') (((s.putCtx c X).releaseDatapath used).complete out)
      (((s'.putCtx c X').releaseDatapath used').complete out') := by
  subst sameOut
  refine ⟨?_, .ok out, by simp, by simp⟩
  unfold State.shownCtx at same ⊢
  simp only [releaseDatapath_ctx, putCtx_ctx, set_slot_view, same, view]

theorem exec_plain_stepsAlike {i : Instr} (named : plainSlotOf i = some c)
    (consistent : s.consistent = s'.consistent) :
    OutcomeRel (StepsAlike (State.shownCtx c) s s') (exec i s) (exec i s') := by
  have rejected := rejected_stepsAlike same
  cases i with
  | init k =>
    obtain rfl : k.toNat = c := Option.some.inj named
    refine guarded_rel consistent ?_
    obtain ⟨hs, hs'⟩ | ⟨X, X', hs, hs', -⟩ := slots_of_map_eq same
    · simp only [slotIndex, hs, hs']
      exact rejected
    · simp only [slotIndex, hs, hs']
      exact complete_putCtx_stepsAlike same (start_settle_view X X' _ _ _) false false rfl
  | update k len data =>
    obtain rfl : k.toNat = c := Option.some.inj named
    exact guarded_rel consistent (admitData_rel rejected same (fun _ _ => view_st) (fun _ _ => view_total)
      fun X X' view active bound =>
        complete_putCtx_stepsAlike same (updated_view _ _ (.ctx k.toNat) view active bound) _ _ rfl)
  | finalize k =>
    obtain rfl : k.toNat = c := Option.some.inj named
    exact guarded_rel consistent (admitActive_rel rejected same (fun _ _ => view_st) fun X X' view active =>
      complete_putCtx_stepsAlike same (unspecified_view _ _ (.ctx k.toNat) (by decide : Status.final ≠ Status.active))
        true true (finalize_view view active))
  | compress V block => cases named
  | hash len data => cases named
  | hmacInit h len key => cases named
  | hmacUpdate h len data => cases named
  | hmacFinish h => cases named
  | hmac klen mlen key data => cases named

end alike

/-- The commands that name plain slot `c` run on what is defined of it (10_state.md R44). -/
theorem plain_runsOn (c : Nat) : RunsOn (fun i => decide (plainSlotOf i = some c)) (State.shownCtx c) where
  alike own consistent same := exec_plain_stepsAlike same (of_decide_eq_true own) consistent
  kept other run := by
    obtain ⟨-, -, -, untouched, -⟩ := otherSlotsUntouched _ _ _ run
    exact congrArg (Option.map Context.view) (untouched c (of_decide_eq_false other))

/-- Settles O51: the commands of a plain slot run on what is defined of it, so they run alike alone and among others. -/
theorem interleavedPlainSlots : Obligations.InterleavedPlainSlots :=
  fun c _ _ _ h => execAll_filter_own_self (plain_runsOn c) h

end Sys2Proof.Machine
end

section
/-! PROOF. The HMAC commands: each completes, with the slot it leaves and its answer in closed form (42_hmac.md R220 to
R225), and a long key gives what its hash gives (R226). -/

namespace Sys2Proof.Machine

/-! ### What an HMAC command leaves alone -/

/-- A command that writes HMAC slot `h` and leaves the other slots and the host's moves alone. -/
theorem onlyHctxChanged_of_set {s t : State} {h : Nat} {Y : HmacContext} (hctx : t.hctx = s.hctx.set h Y)
    (ctx : t.ctx = s.ctx) (input : t.input = s.input) : OnlyHctxChanged s t h := by
  refine ⟨by rw [hctx, List.length_set], fun g other => ?_, ctx, input⟩
  rw [hctx, List.getElem?_set_ne other.symm]

/-- The choice of assumption log 22: the scratch Context of a command whose key is not hashed. -/
theorem scr_of_short_key {key : ByteString} (short : key.length ≤ 64) (scr used : Context) :
    (if keyOversized key then used else scr) = scr := by
  simp [keyOversized_of_le short]

/-- The choice of assumption log 10: the datapath of an HMAC_UPDATE that completes no block. -/
theorem afterHmacUpdate_datapath {s : State} {Y : HmacContext} {data : ByteString} (h : BitVec 8)
    (noBlock : Y.inner.fill.toNat + data.length < 64) : (s.afterHmacUpdate h Y data).datapath = s.datapath := by
  have unused : Y.inner.fillsBlock data = false := decide_eq_false (by omega)
  simp [State.afterHmacUpdate, unused]

/-! ### The commands complete -/

/-- Settles O28: HMAC_INIT leaves `State.afterHmacInit`; its pads are the closed ones, and absorbing the one block
`ipad` after INIT is one compression from the IV (R222). -/
theorem hmacInitCompletes : Obligations.HmacInitCompletes := by
  intro h len key s Y consistent slot short exact_length
  have legal := (lengthLegal_iff len key).mpr ⟨short, exact_length⟩
  have pads (b : Byte) : (padOf (keyBlock s.scr key) b).toList = keyPad key b := pad_toList s.scr b (by omega)
  obtain ⟨V, -, fill, total, active⟩ := absorb_pad Y.inner (padOf (keyBlock s.scr key) ipadByte)
  exact ⟨_, _, exec_hmacInit consistent slot legal, afterHmacInit_slot slot key, pads ipadByte, pads opadByte,
    V, fill, total, active, rfl, rfl, onlyHctxChanged_of_set rfl rfl rfl, rfl,
    fun shortKey => scr_of_short_key shortKey s.scr _⟩

/-- Settles O29: an admitted HMAC_UPDATE leaves `State.afterHmacUpdate`, whose inner Context has absorbed the data in
block form. -/
theorem hmacUpdateCompletes : Obligations.HmacUpdateCompletes := by
  intro h len data s Y consistent slot active short exact_length bound
  have legal := (lengthLegal_iff len data).mpr ⟨short, exact_length⟩
  refine ⟨_, _, exec_hmacUpdate consistent slot active legal bound, afterHmacUpdate_slot slot data,
    updated_absorbedTo _ _ bound, ?_, rfl, rfl, rfl, rfl, onlyHctxChanged_of_set rfl rfl rfl, rfl, rfl,
    afterHmacUpdate_datapath h⟩
  rintro rfl
  rw [updated_nil]

theorem afterHmacFinish_slot {s : State} {h : BitVec 8} {Y : HmacContext} (slot : s.hctx[h.toNat]? = some Y) :
    (s.afterHmacFinish h Y).hctx[h.toNat]? = some
      { Y with
        inner := Context.unspecified s.serial (.inner h.toNat) Status.final
        outer := Context.unspecified s.serial (.outer h.toNat) Status.final } := set_slot slot _

theorem afterHmacFinish_answered (s : State) (h : BitVec 8) (Y : HmacContext) :
    Answered s (s.afterHmacFinish h Y) (messageDigest (Y.opad.toList ++ finalDigest Y.inner)) := by
  rw [Answered, ← finish_eq]
  rfl

/-- Settles O30: an admitted HMAC_FINISH leaves `State.afterHmacFinish`, and the outer pass is the digest of `opad` and
the inner digest. -/
theorem hmacFinishCompletes : Obligations.HmacFinishCompletes := by
  intro h s Y consistent slot active
  exact ⟨_, _, exec_hmacFinish consistent slot active, afterHmacFinish_slot slot, rfl, rfl, rfl, rfl,
    afterHmacFinish_answered s h Y, onlyHctxChanged_of_set rfl rfl rfl, rfl, rfl⟩

theorem afterHmac_answered (s : State) {key data : ByteString} (shortKey : key.length < 2 ^ 62)
    (shortData : data.length < 2 ^ 62) : Answered s (s.afterHmac key data) (messageTag key data) := by
  rw [Answered, ← hmac_eq s.hscr s.scr key data shortKey shortData]
  rfl

/-- Settles O31: HMAC leaves `State.afterHmac`, and the closed tag does not depend on the scratch contexts. -/
theorem hmacCompletes : Obligations.HmacCompletes := by
  intro klen mlen key data s consistent shortKey keyLength shortData dataLength
  have keyLegal := (lengthLegal_iff klen key).mpr ⟨shortKey, keyLength⟩
  have dataLegal := (lengthLegal_iff mlen data).mpr ⟨shortData, dataLength⟩
  exact ⟨_, exec_hmac consistent keyLegal dataLegal, afterHmac_answered s (by omega) (by omega), ⟨rfl, rfl, rfl⟩,
    fun notHashed => scr_of_short_key notHashed s.scr _⟩

/-! ### A long key and its hash -/

/-- The hash of a long key is short, so it is not hashed again (42_hmac.md R220, R226). -/
theorem normalisedKey_messageDigest {key : ByteString} (long : 64 < key.length) :
    normalisedKey (messageDigest key) = normalisedKey key := by
  simp [normalisedKey, long, messageDigest_length]

theorem messageTag_messageDigest {key : ByteString} (long : 64 < key.length) (data : ByteString) :
    messageTag (messageDigest key) data = messageTag key data := by
  simp only [messageTag, keyPad, normalisedKey_messageDigest long]

theorem keyBlock_messageDigest (scr : Context) {key : ByteString} (long : 64 < key.length)
    (short : key.length < 2 ^ 64) : keyBlock scr (messageDigest key) = keyBlock scr key := by
  have digestShort : (messageDigest key).length < 2 ^ 64 := by rw [messageDigest_length]; decide
  apply Vector.toList_inj.mp
  rw [keyBlock_toList scr digestShort, keyBlock_toList scr short, normalisedKey_messageDigest long]

/-- HMAC_INIT reads nothing of the key but `K0`, except to tell whether it used the scratch Context. -/
theorem afterHmacInit_view_of_keyBlock {s : State} {key key' : ByteString} (h : BitVec 8) (Y : HmacContext)
    (same : keyBlock s.scr key = keyBlock s.scr key') :
    (s.afterHmacInit h Y key).view = (s.afterHmacInit h Y key').view := by
  simp only [State.view, State.afterHmacInit, HmacContext.start, same]

/-- What HASH answers is the closed digest. -/
theorem digest_of_exec_hash {len : BitVec 32} {data out : ByteString} {s t : State} (short : len.toNat < 2 ^ 31)
    (exact_length : data.length = len.toNat) (run : exec (.hash len data) s = .next t) (answered : Answered s t out) :
    out = messageDigest data := by
  obtain ⟨t', run', answered', -⟩ := hashCompletes len data s (exec_eq_next run).1 short exact_length
  obtain rfl : t = t' := by simpa [run] using run'
  rw [Answered, answered] at answered'
  simpa using answered'

/-- Settles O36: `d` is the digest of the key, and normalises to the same `K0`. -/
theorem longKeyEquivalence : Obligations.LongKeyEquivalence := by
  intro klen mlen key data s u d shortKey keyLength shortData dataLength long run answered
  have consistent := (exec_eq_next run).1
  obtain rfl := digest_of_exec_hash shortKey keyLength run answered
  have digestLength := messageDigest_length key
  refine ⟨digestLength, ?_, fun h exists_slot => ?_⟩
  · obtain ⟨t, run, tag, -⟩ := hmacCompletes klen mlen key data s consistent shortKey keyLength shortData dataLength
    obtain ⟨t', run', tag', -⟩ :=
      hmacCompletes 32 mlen (messageDigest key) data s consistent (by decide) digestLength shortData dataLength
    rw [messageTag_messageDigest long] at tag'
    exact ⟨t, t', run, run', tag.trans tag'.symm⟩
  · have slot := List.getElem?_eq_getElem exists_slot
    have legal := (lengthLegal_iff klen key).mpr ⟨shortKey, keyLength⟩
    have digestLegal := (lengthLegal_iff 32 (messageDigest key)).mpr ⟨by decide, digestLength⟩
    exact ⟨_, _, exec_hmacInit consistent slot legal, exec_hmacInit consistent slot digestLegal,
      afterHmacInit_view_of_keyBlock h _ (keyBlock_messageDigest s.scr long (by omega)).symm⟩

end Sys2Proof.Machine
end

section
/-! PROOF. A whole life of an HMAC slot: HMAC_INIT begins a message under a key, every HMAC_UPDATE appends to it, and
HMAC_FINISH answers with its tag (42_hmac.md R222 to R225). -/

namespace Sys2Proof.Machine

/-- The slot has been keyed with `key` and then fed `data`: `opad` is ready for the outer pass, and the inner Context
has absorbed `ipad` and the data since INIT (42_hmac.md R222, R223). -/
structure HmacContext.InProgress (Y : HmacContext) (key data : ByteString) : Prop where
  opad : Y.opad.toList = keyPad key 0x5c
  inner : ∃ X : Context, AbsorbedTo X.start (keyPad key 0x36 ++ data) Y.inner

/-- No assertion is violated, and HMAC slot `h` is in the middle of the message `data` under `key`. -/
def State.HmacInProgress (s : State) (h : BitVec 8) (key data : ByteString) : Prop :=
  s.consistent = true ∧ ∃ Y, s.hctx[h.toNat]? = some Y ∧ Y.InProgress key data

theorem keyPad_length (key : ByteString) (b : Byte) : (keyPad key b).length = 64 := by
  simp only [keyPad, normalisedKey, List.length_map, List.length_append, List.length_replicate]
  split
  · rw [messageDigest_length]
  · omega

section inProgress

variable {Y : HmacContext} {key data : ByteString} (h : Y.InProgress key data)
include h

theorem inProgress_active : Y.inner.st = Status.active := by
  obtain ⟨X, absorbed⟩ := h.inner
  exact absorbedTo_st absorbed

/-- The total counts the 64 bytes of `ipad` (42_hmac.md R223). -/
theorem inProgress_total : Y.inner.total.toNat = 64 + data.length := by
  obtain ⟨X, -, -, -, total, -⟩ := h.inner
  rw [total, List.length_append, keyPad_length]
  exact Nat.zero_add _

/-- What HMAC_FINISH answers is the tag of the data (42_hmac.md R224, R225). -/
theorem inProgress_tag (bound : 64 + data.length < 2 ^ 61) :
    messageDigest (Y.opad.toList ++ finalDigest Y.inner) = messageTag key data := by
  obtain ⟨X, absorbed⟩ := h.inner
  have innerLength : (keyPad key 0x36 ++ data).length < 2 ^ 64 := by
    rw [List.length_append, keyPad_length]; omega
  rw [h.opad, finalDigest_of_absorbed absorbed innerLength, messageTag]

/-- Absorbing more into the inner Context alone appends to the message. -/
theorem inProgress_append {Y' : HmacContext} {more : ByteString} (absorbed : AbsorbedTo Y.inner more Y'.inner)
    (opad : Y'.opad = Y.opad) : Y'.InProgress key (data ++ more) where
  opad := opad ▸ h.opad
  inner := by
    obtain ⟨X, before⟩ := h.inner
    exact ⟨X, List.append_assoc .. ▸ absorbedTo_trans before absorbed⟩

end inProgress

/-! ### The commands of a life -/

/-- HMAC_INIT begins the empty message, whatever the slot held. -/
theorem exec_hmacInit_inProgress {s : State} {h : BitVec 8} {key : ByteString} (consistent : s.consistent = true)
    (exists_slot : h.toNat < s.hctx.length) (sendable : Sendable key) :
    ∃ t, exec (.hmacInit h (BitVec.ofNat 32 key.length) key) s = .next t ∧ t.HmacInProgress h key []
      ∧ Answered s t [] := by
  have slot := List.getElem?_eq_getElem exists_slot
  generalize s.hctx[h.toNat] = Y at slot
  have run := exec_hmacInit consistent slot (lengthLegal_of_sendable sendable)
  have short : key.length < 2 ^ 64 := Nat.lt_trans sendable (by decide)
  have started : AbsorbedTo Y.inner.start (keyPad key 0x36) (Y.start s.scr key).inner := by
    rw [← pad_toList s.scr 0x36 short]
    exact absorb_spec _ _ (by simp)
  refine ⟨_, run, ⟨exec_consistent run, _, afterHmacInit_slot slot key, pad_toList s.scr 0x5c short, Y.inner, ?_⟩, rfl⟩
  rw [List.append_nil]
  exact settle_absorbedTo _ _ started

/-- HMAC_UPDATE appends its data to the message. -/
theorem exec_hmacUpdate_inProgress {s : State} {h : BitVec 8} {key data M : ByteString}
    (before : s.HmacInProgress h key data) (sendable : Sendable M) (bound : 64 + (data ++ M).length < 2 ^ 61) :
    ∃ t, exec (.hmacUpdate h (BitVec.ofNat 32 M.length) M) s = .next t ∧ t.HmacInProgress h key (data ++ M)
      ∧ Answered s t [] := by
  obtain ⟨consistent, Y, slot, inProgress⟩ := before
  obtain ⟨short, exact_length⟩ := (lengthLegal_iff _ M).mp (lengthLegal_of_sendable sendable)
  have admitted : Y.inner.total.toNat + M.length < 2 ^ 61 := by
    rw [inProgress_total inProgress, Nat.add_assoc, ← List.length_append]
    exact bound
  obtain ⟨t, Y', run, slot', absorbed, -, -, -, opad, answered, -⟩ := hmacUpdateCompletes h _ M s Y consistent slot
    (inProgress_active inProgress) short exact_length admitted
  exact ⟨t, run, ⟨exec_consistent run, Y', slot', inProgress_append inProgress absorbed opad⟩, answered⟩

/-- The HMAC_UPDATEs of the pieces append their concatenation, however the message is cut. -/
theorem execAll_hmacUpdates_inProgress {h : BitVec 8} {key data : ByteString} {pieces : List ByteString} {s : State}
    (before : s.HmacInProgress h key data) (sendable : ∀ M ∈ pieces, Sendable M)
    (bound : 64 + (data ++ pieces.flatten).length < 2 ^ 61) :
    ∃ t, execAll (hmacUpdatesOf h pieces) s = .next t ∧ t.HmacInProgress h key (data ++ pieces.flatten)
      ∧ t.responses = s.responses ++ pieces.map fun _ => .ok [] := by
  induction pieces generalizing s data with
  | nil => exact ⟨s, rfl, by simpa using before, by simp⟩
  | cons M pieces ih =>
    obtain ⟨sendM, sendRest⟩ := List.forall_mem_cons.mp sendable
    rw [List.flatten_cons, ← List.append_assoc] at bound ⊢
    have boundM : 64 + (data ++ M).length < 2 ^ 61 := by
      rw [List.length_append] at bound; omega
    obtain ⟨s₁, run, after, answered⟩ := exec_hmacUpdate_inProgress before sendM boundM
    obtain ⟨t, rest, final, responses⟩ := ih after sendRest bound
    exact ⟨t, (execAll_cons run _).trans rest, final, by rw [responses, answered]; simp⟩

/-- HMAC_FINISH answers with the tag of the message. -/
theorem exec_hmacFinish_inProgress {s : State} {h : BitVec 8} {key data : ByteString}
    (before : s.HmacInProgress h key data) (bound : 64 + data.length < 2 ^ 61) :
    ∃ t, exec (.hmacFinish h) s = .next t ∧ Answered s t (messageTag key data) := by
  obtain ⟨consistent, Y, slot, inProgress⟩ := before
  obtain ⟨t, -, run, -, -, -, -, -, answered, -⟩ :=
    hmacFinishCompletes h s Y consistent slot (inProgress_active inProgress)
  exact ⟨t, run, inProgress_tag inProgress bound ▸ answered⟩

/-- Settles O34: the message in progress is empty after HMAC_INIT and whole before HMAC_FINISH. -/
theorem streamedTag : Obligations.StreamedTag := by
  intro h key pieces s consistent exists_slot sendKey sendable bound
  obtain ⟨s₁, run_init, begun, answer_init⟩ := exec_hmacInit_inProgress consistent exists_slot sendKey
  obtain ⟨s₂, run_updates, fed, answers⟩ := execAll_hmacUpdates_inProgress begun sendable bound
  obtain ⟨t, run_finish, answer_finish⟩ := exec_hmacFinish_inProgress fed bound
  refine ⟨t, ?_, ?_⟩
  · rw [List.cons_append, execAll_cons run_init, execAll_append run_updates, execAll_cons run_finish, execAll]
  · rw [answer_finish, answers, answer_init, List.nil_append]
    simp

end Sys2Proof.Machine
end

section
/-! PROOF. Interleaving, for the HMAC slots: their commands, too, run on what is defined of the slot they name
(42_hmac.md R229; 10_state.md R44). -/

namespace Sys2Proof.Machine

/-- What is defined of HMAC slot `h`; none if there is no such slot. -/
def State.shownHctx (h : Nat) (s : State) : Option HmacView := s.hctx[h]?.map HmacContext.view

theorem set_hslot_view (l : List HmacContext) (h : Nat) (Y : HmacContext) :
    (l.set h Y)[h]?.map HmacContext.view = (l[h]?.map HmacContext.view).map fun _ => Y.view := by
  rw [List.getElem?_set_self', Option.map_map]
  cases l[h]? <;> rfl

section alike

variable {h : Nat} {s s' : State} (same : s.shownHctx h = s'.shownHctx h)
include same

theorem rejected_stepsAlike_hmac : StepsAlike (State.shownHctx h) s s' s.rejected s'.rejected := ⟨same, _, rfl, rfl⟩

/-- A command that writes slot `h` alike and answers alike, whatever it leaves of the scratch Context and the
datapath. -/
theorem complete_putHctx_stepsAlike {Y Y' : HmacContext} (view : Y.view = Y'.view) (scr scr' used used' : Bool)
    {out out' : ByteString} (sameOut : out = out') :
    OutcomeRel (StepsAlike (State.shownHctx h) s s')
      ((((s.putHctx h Y).releaseScr scr).releaseDatapath used).complete out)
      ((((s'.putHctx h Y').releaseScr scr').releaseDatapath used').complete out') := by
  subst sameOut
  refine ⟨?_, .ok out, by simp, by simp⟩
  unfold State.shownHctx at same ⊢
  simp only [releaseDatapath_hctx, releaseScr_hctx, putHctx_hctx, set_hslot_view, same, view]

theorem exec_hmac_stepsAlike {i : Instr} (named : hmacSlotOf i = some h) (consistent : s.consistent = s'.consistent) :
    OutcomeRel (StepsAlike (State.shownHctx h) s s') (exec i s) (exec i s') := by
  have rejected := rejected_stepsAlike_hmac same
  cases i with
  | hmacInit k len key =>
    obtain rfl : k.toNat = h := Option.some.inj named
    refine guarded_rel consistent ?_
    obtain ⟨hs, hs'⟩ | ⟨Y, Y', hs, hs', view⟩ := slots_of_map_eq same
    · simp only [slotIndex, hs, hs']
      exact rejected
    · simp only [slotIndex, hs, hs']
      refine check_rel rfl (fun legal => ?_) rejected
      have short := length_lt_of_legal legal
      have started := hmacStart_settle_view s.scr s'.scr s.serial s'.serial (.inner k.toNat) (hview_outer view)
        (by omega : key.length < 2 ^ 64)
      exact complete_putHctx_stepsAlike same started _ _ true true rfl
  | hmacUpdate k len data =>
    obtain rfl : k.toNat = h := Option.some.inj named
    exact guarded_rel consistent (admitData_rel rejected same (fun _ _ view => view_st (hview_inner view))
      (fun _ _ view => view_total (hview_inner view)) fun Y Y' view active bound =>
        complete_putHctx_stepsAlike same (hmacUpdated_view _ _ (.inner k.toNat) view active bound) false false _ _ rfl)
  | hmacFinish k =>
    obtain rfl : k.toNat = h := Option.some.inj named
    exact guarded_rel consistent (admitActive_rel rejected same (fun _ _ view => view_st (hview_inner view))
      fun Y Y' view active =>
        complete_putHctx_stepsAlike same (hmacFinished_view Y Y' _ _ (.inner k.toNat) (.outer k.toNat))
          false false true true (finish_view view active))
  | compress V block => cases named
  | init c => cases named
  | update c len data => cases named
  | finalize c => cases named
  | hash len data => cases named
  | hmac klen mlen key data => cases named

end alike

/-- The commands that name HMAC slot `h` run on what is defined of it: the scratch Context on which HMAC_INIT hashes a
long key is written before it is read (42_hmac.md R220, R229). -/
theorem hmac_runsOn (h : Nat) : RunsOn (fun i => decide (hmacSlotOf i = some h)) (State.shownHctx h) where
  alike own consistent same := exec_hmac_stepsAlike same (of_decide_eq_true own) consistent
  kept other run := by
    obtain ⟨-, -, -, -, untouched⟩ := otherSlotsUntouched _ _ _ run
    exact congrArg (Option.map HmacContext.view) (untouched h (of_decide_eq_false other))

/-- Settles O52: the commands of an HMAC slot run on what is defined of it, so they run alike alone and among others. -/
theorem interleavedHmacSlots : Obligations.InterleavedHmacSlots :=
  fun h _ _ _ run => execAll_filter_own_self (hmac_runsOn h) run

end Sys2Proof.Machine
end

section
/-! PROOF. The four answers to a command: the fatal assertion at its start, the response `INVALID_INPUT`, the refusal
beyond the length bound, and the response `OK` (60_exceptions.md R250, R251, R255, R256, R265); and runs that meet no
violated assertion (R255). -/

namespace Sys2Proof.Machine

/-! ### What turns a command away -/

theorem lengthBad_iff (len : BitVec 32) (data : ByteString) : LengthBad len data ↔ lengthLegal len data = false := by
  rw [← Bool.not_eq_true, lengthLegal_iff, LengthBad]
  omega

theorem lengthLegal_of_not_bad {len : BitVec 32} {data : ByteString} (fine : ¬ LengthBad len data) :
    lengthLegal len data = true := by
  rwa [lengthBad_iff, Bool.not_eq_false] at fine

section admission

variable {α : Type} {l : List α} {c : Nat} {a : α} {ctxOf : α → Context} {len : BitVec 32} {data : ByteString}
  (s : State) (run : α → Result)

/-- Rows 5, 8 and 9 of the table of 60_exceptions.md R251 for a slot of `l`, in the form `InvalidCause` gives them. -/
theorem admitActive_of_cause (cause : l.length ≤ c ∨ ∃ a, l[c]? = some a ∧ (ctxOf a).st ≠ Status.active) :
    s.admitActive l[c]? ctxOf run = .next s.rejected := by
  obtain outside | ⟨a, slot, inactive⟩ := cause
  · rw [List.getElem?_eq_none outside]; rfl
  · have notActive : (ctxOf a).isActive = false := decide_eq_false inactive
    simp [slot, State.admitActive, notActive, raiseInvalidInput_eq]

/-- As `admitActive_of_cause`, with rows 6 and 7. -/
theorem admitData_of_cause
    (cause : l.length ≤ c ∨ LengthBad len data ∨ ∃ a, l[c]? = some a ∧ (ctxOf a).st ≠ Status.active) :
    s.admitData l[c]? ctxOf len data run = .next s.rejected := by
  cases slot : l[c]? with
  | none => rfl
  | some a =>
    obtain outside | bad | ⟨b, slot', inactive⟩ := cause
    · exact absurd (List.getElem?_eq_none outside) (by simp [slot])
    · simp [State.admitData, (lengthBad_iff len data).mp bad, raiseInvalidInput_eq]
    · obtain rfl : a = b := Option.some.inj (slot.symm.trans slot')
      have notActive : (ctxOf a).isActive = false := decide_eq_false inactive
      simp [State.admitData, notActive, raiseInvalidInput_eq]

/-- The length bound is the last check, beyond which there is no answer (60_exceptions.md R256, R265). -/
theorem admitData_beyond_bound (legal : lengthLegal len data = true) (active : (ctxOf a).st = Status.active)
    (beyond : 2 ^ 61 ≤ (ctxOf a).total.toNat + data.length) :
    s.admitData (some a) ctxOf len data run = .refused .lengthOutOfScope := by
  have isActive : (ctxOf a).isActive = true := decide_eq_true active
  have notWithin : (ctxOf a).withinBound data.length = false := decide_eq_false (Nat.not_lt.mpr beyond)
  simp [State.admitData, legal, isActive, notWithin]

end admission

section noCause

variable {α : Type} {l : List α} {c : Nat} {ctxOf : α → Context} {len : BitVec 32} {data : ByteString}

theorem slot_of_inside (inside : ¬ l.length ≤ c) : ∃ a, l[c]? = some a :=
  ⟨_, List.getElem?_eq_getElem (Nat.not_le.mp inside)⟩

theorem active_slot_of_no_cause (noCause : ¬ (l.length ≤ c ∨ ∃ a, l[c]? = some a ∧ (ctxOf a).st ≠ Status.active)) :
    ∃ a, l[c]? = some a ∧ (ctxOf a).st = Status.active := by
  obtain ⟨inside, notInactive⟩ := not_or.mp noCause
  obtain ⟨a, slot⟩ := slot_of_inside inside
  exact ⟨a, slot, by_contra fun inactive => notInactive ⟨a, slot, inactive⟩⟩

theorem data_slot_of_no_cause
    (noCause : ¬ (l.length ≤ c ∨ LengthBad len data ∨ ∃ a, l[c]? = some a ∧ (ctxOf a).st ≠ Status.active)) :
    ∃ a, l[c]? = some a ∧ lengthLegal len data = true ∧ (ctxOf a).st = Status.active := by
  rw [or_left_comm, not_or] at noCause
  obtain ⟨fine, noSlotCause⟩ := noCause
  obtain ⟨a, slot, active⟩ := active_slot_of_no_cause noSlotCause
  exact ⟨a, slot, lengthLegal_of_not_bad fine, active⟩

end noCause

/-! ### The answer to a command, from a state with no violated assertion -/

section answers

variable {s : State} {i : Instr}

theorem exec_of_cause (consistent : s.consistent = true) (cause : InvalidCause s i) : exec i s = .next s.rejected := by
  cases i with
  | compress V block => exact cause.elim
  | init c =>
    rw [exec, execInit, guarded_of_consistent consistent, slotIndex, List.getElem?_eq_none cause]
    rfl
  | update c len data => exact (guarded_of_consistent consistent _).trans (admitData_of_cause s _ cause)
  | finalize c => exact (guarded_of_consistent consistent _).trans (admitActive_of_cause s _ cause)
  | hash len data =>
    rw [exec, execHash, guarded_of_consistent consistent, (lengthBad_iff len data).mp cause]
    rfl
  | hmacInit h len key =>
    rw [exec, execHmacInit, guarded_of_consistent consistent, slotIndex]
    obtain outside | bad := cause
    · rw [List.getElem?_eq_none outside]; rfl
    · rw [(lengthBad_iff len key).mp bad]; split <;> rfl
  | hmacUpdate h len data => exact (guarded_of_consistent consistent _).trans (admitData_of_cause s _ cause)
  | hmacFinish h => exact (guarded_of_consistent consistent _).trans (admitActive_of_cause s _ cause)
  | hmac klen mlen key data =>
    have illegal : (lengthLegal klen key && lengthLegal mlen data) = false := by
      rwa [Bool.and_eq_false_iff, ← lengthBad_iff, ← lengthBad_iff]
    rw [exec, execHmac, guarded_of_consistent consistent, illegal]
    rfl

theorem exec_of_outOfScope (consistent : s.consistent = true) (noCause : ¬ InvalidCause s i) (beyond : OutOfScope s i) :
    exec i s = .refused .lengthOutOfScope := by
  cases i with
  | update c len data =>
    obtain ⟨X, slot, bound⟩ := beyond
    obtain ⟨X', slot', legal, active⟩ := data_slot_of_no_cause (ctxOf := id) noCause
    obtain rfl : X = X' := Option.some.inj (slot.symm.trans slot')
    rw [exec, execUpdate, guarded_of_consistent consistent, slotIndex, slot,
      admitData_beyond_bound s _ legal active bound]
  | hmacUpdate h len data =>
    obtain ⟨Y, slot, bound⟩ := beyond
    obtain ⟨Y', slot', legal, active⟩ := data_slot_of_no_cause noCause
    obtain rfl : Y = Y' := Option.some.inj (slot.symm.trans slot')
    rw [exec, execHmacUpdate, guarded_of_consistent consistent, slotIndex, slot,
      admitData_beyond_bound s _ legal active bound]
  | compress V block => exact beyond.elim
  | init c => exact beyond.elim
  | finalize c => exact beyond.elim
  | hash len data => exact beyond.elim
  | hmacInit h len key => exact beyond.elim
  | hmacFinish h => exact beyond.elim
  | hmac klen mlen key data => exact beyond.elim

theorem exec_of_admitted (consistent : s.consistent = true) (noCause : ¬ InvalidCause s i) (inScope : ¬ OutOfScope s i) :
    ∃ t, exec i s = .next t ∧ Effect s t i := by
  cases i with
  | compress V block => exact ⟨_, exec_compress V block consistent, rfl⟩
  | init c =>
    obtain ⟨X, slot⟩ := slot_of_inside noCause
    exact ⟨_, exec_init consistent slot, X, slot, rfl⟩
  | update c len data =>
    obtain ⟨X, slot, legal, active⟩ := data_slot_of_no_cause (ctxOf := id) noCause
    have bound := Nat.not_le.mp fun beyond => inScope ⟨X, slot, beyond⟩
    exact ⟨_, exec_update consistent slot active legal bound,
      X, slot, legal, (isActive_iff X).mpr active, (withinBound_iff X _).mpr bound, rfl⟩
  | finalize c =>
    obtain ⟨X, slot, active⟩ := active_slot_of_no_cause (ctxOf := id) noCause
    exact ⟨_, exec_finalize consistent slot active, X, slot, (isActive_iff X).mpr active, rfl⟩
  | hash len data =>
    have legal := lengthLegal_of_not_bad noCause
    exact ⟨_, exec_hash consistent legal, legal, rfl⟩
  | hmacInit h len key =>
    obtain ⟨inside, fine⟩ := not_or.mp noCause
    obtain ⟨Y, slot⟩ := slot_of_inside inside
    have legal := lengthLegal_of_not_bad fine
    exact ⟨_, exec_hmacInit consistent slot legal, Y, slot, legal, rfl⟩
  | hmacUpdate h len data =>
    obtain ⟨Y, slot, legal, active⟩ := data_slot_of_no_cause noCause
    have bound := Nat.not_le.mp fun beyond => inScope ⟨Y, slot, beyond⟩
    exact ⟨_, exec_hmacUpdate consistent slot active legal bound,
      Y, slot, legal, (isActive_iff Y.inner).mpr active, (withinBound_iff Y.inner _).mpr bound, rfl⟩
  | hmacFinish h =>
    obtain ⟨Y, slot, active⟩ := active_slot_of_no_cause noCause
    exact ⟨_, exec_hmacFinish consistent slot active, Y, slot, (isActive_iff Y.inner).mpr active, rfl⟩
  | hmac klen mlen key data =>
    obtain ⟨keyFine, dataFine⟩ := not_or.mp noCause
    have keyLegal := lengthLegal_of_not_bad keyFine
    have dataLegal := lengthLegal_of_not_bad dataFine
    exact ⟨_, exec_hmac consistent keyLegal dataLegal, keyLegal, dataLegal, rfl⟩

/-- The answers to command `i` in state `s`, in the precedence of 60_exceptions.md R256: a cause of InvalidInput decides
first, then the length bound. -/
inductive Verdict (s : State) (i : Instr) : Result → Prop
  | rejected (cause : InvalidCause s i) : Verdict s i (.next s.rejected)
  | refused (noCause : ¬ InvalidCause s i) (beyond : OutOfScope s i) : Verdict s i (.refused .lengthOutOfScope)
  | admitted (noCause : ¬ InvalidCause s i) (inScope : ¬ OutOfScope s i) (t : State) (effect : Effect s t i) :
      Verdict s i (.next t)

theorem exec_verdict (i : Instr) (consistent : s.consistent = true) : Verdict s i (exec i s) := by
  by_cases cause : InvalidCause s i
  · rw [exec_of_cause consistent cause]; exact .rejected cause
  · by_cases beyond : OutOfScope s i
    · rw [exec_of_outOfScope consistent cause beyond]; exact .refused cause beyond
    · obtain ⟨t, run, effect⟩ := exec_of_admitted consistent cause beyond
      rw [run]; exact .admitted cause beyond t effect

/-- An admitted command answers `OK`, and its output is a digest or nothing (30_encoding.md R96). -/
theorem effect_answered {t : State} (e : Effect s t i) :
    ∃ out, Answered s t out ∧ out.length = if givesDigest i then 32 else 0 := by
  cases i with
  | compress V block => cases e; exact ⟨_, rfl, digestBytes_length _⟩
  | init c => obtain ⟨X, -, rfl⟩ := e; exact ⟨_, rfl, rfl⟩
  | update c len data => obtain ⟨X, -, -, -, -, rfl⟩ := e; exact ⟨_, rfl, rfl⟩
  | finalize c => obtain ⟨X, -, -, rfl⟩ := e; exact ⟨_, rfl, finalize_length X⟩
  | hash len data => obtain ⟨-, rfl⟩ := e; exact ⟨_, rfl, finalize_length _⟩
  | hmacInit h len key => obtain ⟨Y, -, -, rfl⟩ := e; exact ⟨_, rfl, rfl⟩
  | hmacUpdate h len data => obtain ⟨Y, -, -, -, -, rfl⟩ := e; exact ⟨_, rfl, rfl⟩
  | hmacFinish h => obtain ⟨Y, -, -, rfl⟩ := e; exact ⟨_, rfl, finish_length Y⟩
  | hmac klen mlen key data => obtain ⟨-, -, rfl⟩ := e; exact ⟨_, rfl, finish_length _⟩

theorem effect_ne_rejected {t : State} (e : Effect s t i) : t ≠ s.rejected := by
  rintro rfl
  obtain ⟨out, answered, -⟩ := effect_answered e
  have lastResponse : [Response.invalidInput] = [.ok out] := List.append_cancel_left answered
  cases lastResponse

end answers

/-- Settles O37: of the three verdicts only the rejection answers `INVALID_INPUT`; an admitted command answers `OK`. -/
theorem invalidInputExactlyWhenCaused : Obligations.InvalidInputExactlyWhenCaused := by
  intro i s consistent
  have verdict := exec_verdict i consistent
  generalize exec i s = r at verdict ⊢
  cases verdict with
  | rejected cause => exact iff_of_true rfl cause
  | refused noCause beyond => exact iff_of_false nofun noCause
  | admitted noCause inScope t effect =>
    exact iff_of_false (fun same => effect_ne_rejected effect (Host.Outcome.next.inj same)) noCause

/-- Settles O38: of the three verdicts only one is a refusal, and a cause of InvalidInput decides before it. -/
theorem refusedExactlyBeyondScope : Obligations.RefusedExactlyBeyondScope := by
  intro i s consistent
  have verdict := exec_verdict i consistent
  generalize exec i s = r at verdict ⊢
  cases verdict with
  | rejected cause => exact iff_of_false nofun fun ⟨_, noCause⟩ => noCause cause
  | refused noCause beyond => exact iff_of_true rfl ⟨beyond, noCause⟩
  | admitted noCause inScope t effect => exact iff_of_false nofun fun ⟨beyond, _⟩ => inScope beyond

/-- Settles O40: what is neither rejected nor refused has its effect, whose response is `OK`. -/
theorem admittedCommandAnswersOk : Obligations.AdmittedCommandAnswersOk := by
  intro i s consistent noCause inScope
  obtain ⟨t, run, effect⟩ := exec_of_admitted consistent noCause inScope
  obtain ⟨out, answered, length⟩ := effect_answered effect
  exact ⟨t, out, run, answered, length⟩

/-! ### The fatal assertion -/

theorem exec_of_inconsistent (i : Instr) {s : State} (violated : s.consistent = false) :
    exec i s = .fault .fatalAssert := by
  cases i <;> exact guarded_of_inconsistent violated _

theorem exec_ne_fault (i : Instr) {s : State} (consistent : s.consistent = true) (f : Fault) : exec i s ≠ .fault f := by
  have verdict := exec_verdict i consistent
  generalize exec i s = r at verdict ⊢
  cases verdict <;> exact nofun

theorem exec_eq_fault_iff (i : Instr) (s : State) : exec i s = .fault .fatalAssert ↔ s.consistent = false := by
  cases h : s.consistent with
  | true => exact iff_of_false (exec_ne_fault i h _) nofun
  | false => exact iff_of_true (exec_of_inconsistent i h) rfl

/-- `X` is a Context of a plain or of an HMAC slot: the ones the fatal assertion looks at (assumption log 6). -/
def State.Holds (s : State) (X : Context) : Prop := X ∈ s.ctx ∨ ∃ Y ∈ s.hctx, X = Y.inner ∨ X = Y.outer

theorem consistent_iff_holds (s : State) : s.consistent = true ↔ ∀ X, s.Holds X → X.consistent = true := by
  rw [consistent_iff_all]
  constructor
  · rintro ⟨plain, hmac⟩ X (mem | ⟨Y, mem, rfl | rfl⟩)
    · exact plain X mem
    · exact (hmac Y mem).1
    · exact (hmac Y mem).2
  · intro all
    exact ⟨fun X mem => all X (.inl mem),
      fun Y mem => ⟨all _ (.inr ⟨Y, mem, .inl rfl⟩), all _ (.inr ⟨Y, mem, .inr rfl⟩)⟩⟩

theorem inconsistent_iff_holds (s : State) : s.consistent = false ↔ ∃ X, s.Holds X ∧ X.consistent = false := by
  rw [← Bool.not_eq_true, consistent_iff_holds]
  push Not
  simp only [ne_eq, Bool.not_eq_true]

/-- Settles O39: with no violated assertion every verdict is another answer than the fault. -/
theorem faultExactlyOnViolatedAssertion : Obligations.FaultExactlyOnViolatedAssertion := by
  intro i s
  rw [exec_eq_fault_iff, inconsistent_iff_holds]
  exact exists_congr fun X => and_congr_right fun _ => consistent_iff X

/-! ### Runs that never fault -/

theorem runPacket_ne_fault (p : ByteString) {s : State} (consistent : s.consistent = true) (f : Fault) :
    runPacket p s ≠ .fault f := by
  cases decoded : decode p with
  | ok i => rw [runPacket_of_ok decoded]; exact exec_ne_fault i consistent f
  | error e => rw [runPacket_of_error decoded, State.rejectPacket, guarded_of_consistent consistent]; exact nofun

/-- Neither an idle step nor a reset looks at the assertion, and receiving a packet does not touch a slot. -/
theorem step_ne_fault {s : State} (consistent : s.consistent = true) (f : Fault) : step s ≠ .fault f := by
  match received : s.input with
  | [] => rw [step, State.receive, received]; exact nofun
  | .reset :: rest => rw [step, State.receive, received]; exact nofun
  | .packet p :: rest =>
    rw [step_packet received]
    exact runPacket_ne_fault p (s := { s with input := rest }) consistent f

theorem consistent_of_uninit {X : Context} (h : X.st = Status.uninit) : X.consistent = true :=
  ((wellKept_iff X).mp (wellKept_of_uninit h)).1

theorem hmacConsistent_of_wellKept {Y : HmacContext} (kept : Y.wellKept = true) :
    Y.inner.consistent = true ∧ Y.outer.consistent = true := by
  obtain ⟨inner, -, outer, -, -⟩ := (hmacWellKept_iff Y).mp kept
  exact ⟨((wellKept_iff Y.inner).mp inner).1, outer.elim consistent_of_uninit consistent_of_final⟩

theorem consistent_of_inv {s : State} (inv : s.Inv) : s.consistent = true :=
  (consistent_iff_all s).mpr
    ⟨fun X mem => ((wellKept_iff X).mp (List.all_eq_true.mp inv.ctxKept X mem)).1,
      fun Y mem => hmacConsistent_of_wellKept (List.all_eq_true.mp inv.hctxKept Y mem)⟩

/-- Settles O48: by O47 the invariant holds before every step of the run, and it leaves no assertion violated. -/
theorem invariantStatesNeverFault : Obligations.InvariantStatesNeverFault := by
  intro s inv k f
  induction k generalizing s with
  | zero => exact nofun
  | succ k ih =>
    intro faulted
    obtain now | ⟨t, run, later⟩ := run_succ_eq_fault faulted
    · exact step_ne_fault (consistent_of_inv inv) f now
    · exact ih t (stepKeepsInvariant s t inv run) later

/-- Settles O49: reset establishes the invariant, whatever the host has to send. -/
theorem runsFromResetNeverFault : Obligations.RunsFromResetNeverFault :=
  fun _ _ n events hctxLow hctxHigh hhctxLow hhctxHigh =>
    invariantStatesNeverFault _ (afterReset_inv n events ⟨hctxLow, hctxHigh⟩ ⟨hhctxLow, hhctxHigh⟩ List.all_nil)

end Sys2Proof.Machine
end

section
/-! PROOF. The number of block compressions of each command (70_reset_and_hazards.md R289, R290; 42_hmac.md R228): it
follows from fill counts and lengths alone, never from the bytes appended. -/

namespace Sys2Proof.Machine

/-! ### Appending -/

theorem appendCost_eq (X : Context) : X.appendCost = (X.fill.toNat + 1) / 64 := by
  have fill_lt := X.fill.isLt
  simp only [Context.appendCost, fill_eq_63_iff]
  split <;> omega

theorem appendAllCost_eq (X : Context) (bs : ByteString) : X.appendAllCost bs = (X.fill.toNat + bs.length) / 64 := by
  induction bs generalizing X with
  | nil => exact (Nat.div_eq_of_lt X.fill.isLt).symm
  | cons b bs ih =>
    rw [Context.appendAllCost, appendCost_eq, ih, append_fill, List.length_cons]
    omega

/-- The count UPDATE keeps of its bytes fills no block: it costs what its appends do. -/
theorem absorbCost_eq (X : Context) (data : ByteString) : X.absorbCost data = (X.fill.toNat + data.length) / 64 := by
  rw [← appendAllCost_eq]
  induction data generalizing X with
  | nil => rfl
  | cons b bs ih =>
    rw [Context.absorbCost, Context.appendAllCost, ih, appendAllCost_eq, appendAllCost_eq, absorbByte_fill]

theorem absorb_fill (X : Context) (data : ByteString) :
    (X.absorb data).fill.toNat = (X.fill.toNat + data.length) % 64 := by
  obtain ⟨-, -, fill⟩ := appendAll_block X data
  rw [absorb_eq_appendAll, fill, List.length_append, content_length]

theorem start_fill_toNat (X : Context) : X.start.fill.toNat = 0 := rfl

theorem absorbCost_start (X : Context) (data : ByteString) : X.start.absorbCost data = data.length / 64 := by
  rw [absorbCost_eq, start_fill_toNat, Nat.zero_add]

theorem absorbCost_start_block (X : Context) (B : Block) : X.start.absorbCost B.toList = 1 := by
  rw [absorbCost_start, Vector.length_toList]

theorem absorb_start_block_fill (X : Context) (B : Block) : (X.start.absorb B.toList).fill.toNat = 0 := by
  obtain ⟨-, -, fill, -⟩ := absorb_pad X B
  exact fill

/-! ### The padding -/

/-- The zeros on the way to 56 fill a block up only when they start beyond 56. -/
theorem zeroPadCost_eq (fuel : Nat) (X : Context) (enough : (120 - X.fill.toNat) % 64 ≤ fuel) :
    Context.zeroPadCost fuel X = (X.fill.toNat + 7) / 64 := by
  have fill_lt := X.fill.isLt
  induction fuel generalizing X with
  | zero => rw [Context.zeroPadCost]; omega
  | succ fuel ih =>
    have at56 : X.fill = 56 ↔ X.fill.toNat = 56 := BitVec.toNat_inj.symm
    have next := append_fill X 0x00
    simp only [Context.zeroPadCost, at56]
    split
    · omega
    · rw [appendCost_eq, ih _ (by omega) (BitVec.isLt _), next]
      omega

/-- The `0x80`, the zeros and the length field, each with its share: the zeros end at 56, so the length field always
fills the last block up. -/
theorem finalizeCost_eq (X : Context) : X.finalizeCost = if X.fill.toNat ≤ 55 then 1 else 2 := by
  have fill_lt := X.fill.isLt
  rw [Context.finalizeCost, appendCost_eq, zeroPadCost_eq 63 _ (by omega), appendAllCost_eq, append_fill, zeroPad_fill,
    lengthField_length]
  split <;> omega

/-! ### The commands -/

theorem blockCount_eq (n : Nat) : blockCount n = n / 64 + if n % 64 ≤ 55 then 1 else 2 := by
  rw [blockCount]
  split <;> rfl

theorem hashCost_eq (X : Context) (data : ByteString) : X.hashCost data = blockCount data.length := by
  rw [Context.hashCost, absorbCost_start, finalizeCost_eq, absorb_fill, start_fill_toNat, Nat.zero_add, blockCount_eq]

theorem keyOversized_iff (key : ByteString) : keyOversized key = true ↔ 64 < key.length :=
  decide_eq_true_iff

/-- One compression for the pad, and those of the key when it is hashed first (42_hmac.md R220, R222). -/
theorem startCost_eq (Y : HmacContext) (scr : Context) (key : ByteString) :
    Y.startCost scr key = 1 + if 64 < key.length then blockCount key.length else 0 := by
  simp only [HmacContext.startCost, absorbCost_start_block, hashCost_eq, keyOversized_iff]
  exact Nat.add_comm _ 1

/-- The outer pass costs one compression for `opad` and one for the block of the inner digest (42_hmac.md R224,
R228). -/
theorem finishCost_eq (Y : HmacContext) : Y.finishCost = (if Y.inner.fill.toNat ≤ 55 then 1 else 2) + 2 := by
  rw [HmacContext.finishCost, finalizeCost_eq, absorbCost_start_block, absorbCost_eq, absorb_start_block_fill,
    finalizeCost_eq, absorb_fill, absorb_start_block_fill, finalize_length]
  rfl

/-- The 64 bytes of `ipad` leave the inner fill count at 0, so the message costs what HASH does (42_hmac.md R228). -/
theorem oneShotCost_eq (Y : HmacContext) (scr : Context) (key data : ByteString) :
    Y.oneShotCost scr key data
      = blockCount data.length + 3 + if 64 < key.length then blockCount key.length else 0 := by
  have afterPad : (Y.start scr key).inner.fill.toNat = 0 := absorb_start_block_fill Y.inner _
  rw [HmacContext.oneShotCost, startCost_eq, absorbCost_eq, finishCost_eq, hmacAbsorb_inner, absorb_fill, afterPad,
    Nat.zero_add, blockCount_eq data.length]
  omega

/-- Settles O53: each row of the table is the cost of the command's procedure on the Context it runs on. -/
theorem compressionCounts : Obligations.CompressionCounts := by
  intro s
  refine ⟨fun V block => rfl, fun c => rfl, fun c len data X slot => ?_, fun c X slot => ?_,
    fun len data => hashCost_eq s.scr data, fun h len key Y slot => ?_, fun h len data Y slot => ?_,
    fun h Y slot => ?_, fun klen mlen key data => oneShotCost_eq s.hscr s.scr key data⟩ <;>
    rw [commandCost, slotIndex, slot, Option.map_some, Option.getD_some]
  · exact absorbCost_eq X data
  · exact finalizeCost_eq X
  · exact startCost_eq Y s.scr key
  · exact absorbCost_eq Y.inner data
  · exact finishCost_eq Y

end Sys2Proof.Machine
end

section
/-! PROOF. Reset and the idle host: what reset leaves in the slots, and the two steps that run no command
(70_reset_and_hazards.md R280, R281, R291, R292). -/

namespace Sys2Proof.Machine

/-! ### What reset leaves -/

section afterReset

variable (nctx nhctx n : Nat) (input : List HostEvent) (responses : List Response)

@[simp] theorem hmacUnspecified_inner_st (h : Nat) (st : Status) : (HmacContext.unspecified n h st).inner.st = st := rfl

@[simp] theorem hmacUnspecified_outer_st (h : Nat) (st : Status) : (HmacContext.unspecified n h st).outer.st = st := rfl

theorem afterReset_ctx_st : (State.afterReset nctx nhctx n input responses).ctx.map Context.st
    = List.replicate nctx Status.uninit := by
  simp only [afterReset_ctx, List.map_map, Function.comp_def, unspecified_st, List.map_const', List.length_range]

theorem afterReset_hctx_st :
    (State.afterReset nctx nhctx n input responses).hctx.map (fun Y => (Y.inner.st, Y.outer.st))
      = List.replicate nhctx (Status.uninit, Status.uninit) := by
  simp only [afterReset_hctx, List.map_map, Function.comp_def, hmacUnspecified_inner_st, hmacUnspecified_outer_st,
    List.map_const', List.length_range]

end afterReset

/-- Settles O20: the default numbers of slots are 2 and 1. -/
theorem resetState : Obligations.ResetState :=
  ⟨afterReset_ctx_st Config.nctx Config.nhctx 0 [] [], afterReset_hctx_st Config.nctx Config.nhctx 0 [] [],
    afterReset_input .., afterReset_responses ..⟩

section takeReset

variable (s : State)

theorem takeReset_ctx_length : s.takeReset.ctx.length = s.ctx.length := by
  rw [State.takeReset, afterReset_ctx, List.length_map, List.length_range]

theorem takeReset_hctx_length : s.takeReset.hctx.length = s.hctx.length := by
  rw [State.takeReset, afterReset_hctx, List.length_map, List.length_range]

theorem takeReset_ctx_uninit : ∀ X ∈ s.takeReset.ctx, X.st = Status.uninit := by
  intro X mem
  have st_mem := List.mem_map_of_mem (f := Context.st) mem
  rw [State.takeReset, afterReset_ctx_st] at st_mem
  exact List.eq_of_mem_replicate st_mem

theorem takeReset_hctx_uninit : ∀ Y ∈ s.takeReset.hctx, Y.inner.st = Status.uninit ∧ Y.outer.st = Status.uninit := by
  intro Y mem
  have st_mem := List.mem_map_of_mem (f := fun Y : HmacContext => (Y.inner.st, Y.outer.st)) mem
  rw [State.takeReset, afterReset_hctx_st] at st_mem
  exact Prod.mk.inj (List.eq_of_mem_replicate st_mem)

/-- A Context at `ST_UNINIT` violates no assertion, whatever its other fields hold (60_exceptions.md R255). -/
theorem takeReset_consistent : s.takeReset.consistent = true :=
  (consistent_iff_all s.takeReset).mpr
    ⟨fun X mem => consistent_of_uninit (takeReset_ctx_uninit s X mem), fun Y mem =>
      (takeReset_hctx_uninit s Y mem).imp consistent_of_uninit consistent_of_uninit⟩

end takeReset

/-! ### The steps that run no command -/

theorem step_reset {s : State} {rest : List HostEvent} (received : s.input = .reset :: rest) :
    step s = .next ({ s with input := rest } : State).takeReset := by
  rw [step, State.receive, received]

/-- Settles O18: the step does not look at the assertion before it takes the reset, so every state is reset. -/
theorem stepTakesReset : Obligations.StepTakesReset := fun _ _ received =>
  ⟨_, step_reset received, takeReset_input _, takeReset_responses _, takeReset_ctx_length _, takeReset_hctx_length _,
    takeReset_ctx_uninit _, takeReset_hctx_uninit _, takeReset_consistent _⟩

/-- Settles O19: with nothing to receive, the step answers the state it was given. -/
theorem idleStepChangesNothing : Obligations.IdleStepChangesNothing := by
  intro s idle
  rw [step, receive_eq_none.mpr idle]

end Sys2Proof.Machine
end
